-- ==== Sys2Proof/Word.lean ====
section
/-! DEFINITION. The word types of CORE: the widths of spec/00_scope.md R8 and the field widths of R14. -/

namespace Sys2Proof

/-- A byte: a general register, a timer or a memory cell (R8, R100, R115). -/
abbrev Byte := BitVec 8

/-- A 16-bit word: PC, I, a stack slot, IR and an instruction (R8, R300). -/
abbrev Word := BitVec 16

/-- A 4-bit field of an instruction word (R14: X, Y, N, and the keys of families 0, 8 and E). -/
abbrev Nibble := BitVec 4

/-- The number of a general register, 0 to 15 (R100). -/
abbrev Reg := BitVec 4

/-- A 12-bit address field NNN (R14). -/
abbrev Addr12 := BitVec 12

/-- The index of the flag register VF = V[15] (R8 FLAG_REG, R103). -/
abbrev flagReg : Reg := 15#4

end Sys2Proof
end

