-- ==== Sys2Proof/Syntax.lean ====
section
/-! DEFINITION. The instructions of CORE: one constructor per row of spec/opcode_table.json, in the table's order,
carrying the fields that row's rule reads (spec/30_encoding.md R301, R302). Bits the spec calls ignored are in no
constructor. -/

namespace Sys2Proof

/-- One constructor per row of the opcode table: 34 instructions and the four NOP rows (R311). -/
inductive Instr where
  /-- 00E0, every 0nn0: clear the display (R501). -/
  | cls
  /-- 00EE, every 0nnE: return from subroutine (R502). -/
  | ret
  /-- Family 0 with an unassigned key: no operation (R408). -/
  | nop0 (sub : Nibble)
  /-- 1NNN: jump (R503). -/
  | jp (nnn : Addr12)
  /-- 2NNN: call subroutine (R504). -/
  | call (nnn : Addr12)
  /-- 3XNN: skip if register equals immediate (R505). -/
  | seImm (x : Reg) (nn : Byte)
  /-- 4XNN: skip if register differs from immediate (R506). -/
  | sneImm (x : Reg) (nn : Byte)
  /-- 5XYn: skip if registers are equal (R507). -/
  | seReg (x y : Reg)
  /-- 6XNN: load immediate (R601). -/
  | ldImm (x : Reg) (nn : Byte)
  /-- 7XNN: add immediate, no flag (R602). -/
  | addImm (x : Reg) (nn : Byte)
  /-- 8XY0: copy register (R603). -/
  | ldReg (x y : Reg)
  /-- 8XY1: bitwise OR (R605). -/
  | orReg (x y : Reg)
  /-- 8XY2: bitwise AND (R606). -/
  | andReg (x y : Reg)
  /-- 8XY3: bitwise XOR (R607). -/
  | xorReg (x y : Reg)
  /-- 8XY4: add with carry flag (R608). -/
  | addReg (x y : Reg)
  /-- 8XY5: Vx − Vy with no-borrow flag (R609). -/
  | subReg (x y : Reg)
  /-- 8XY6: shift right by 1 (R610). -/
  | shr (x y : Reg)
  /-- 8XY7: Vy − Vx with no-borrow flag (R611). -/
  | subn (x y : Reg)
  /-- 8XYE: shift left by 1 (R612). -/
  | shl (x y : Reg)
  /-- Family 8 with an unassigned key: no operation (R408). -/
  | nop8 (sub : Nibble)
  /-- 9XYn: skip if registers differ (R508). -/
  | sneReg (x y : Reg)
  /-- ANNN: load index (R700). -/
  | ldI (nnn : Addr12)
  /-- BNNN: jump with offset V0 (R509). -/
  | jpV0 (nnn : Addr12)
  /-- CXNN: random byte under mask (R703). -/
  | rnd (x : Reg) (nn : Byte)
  /-- DXYN: draw sprite (R800). -/
  | drw (x y : Reg) (n : Nibble)
  /-- EX9E, every EXnE: skip if key pressed (R901). -/
  | skp (x : Reg)
  /-- EXA1, every EXn1: skip if key not pressed (R902). -/
  | sknp (x : Reg)
  /-- Family E with an unassigned key: no operation (R408). -/
  | nopE (sub : Nibble)
  /-- FX07: read the delay timer (R1000). -/
  | ldVxDt (x : Reg)
  /-- FX0A: wait for a key (R903). -/
  | ldVxK (x : Reg)
  /-- FX15: write the delay timer (R1001). -/
  | ldDtVx (x : Reg)
  /-- FX18: write the sound timer (R1002). -/
  | ldStVx (x : Reg)
  /-- FX1E: add register to index (R701). -/
  | addI (x : Reg)
  /-- FX29: point index at a font glyph (R702). -/
  | ldF (x : Reg)
  /-- FX33: store BCD digits (R1100). -/
  | ldB (x : Reg)
  /-- FX55: store registers V0 to VX (R1101). -/
  | ldMemVx (x : Reg)
  /-- FX65: load registers V0 to VX (R1102). -/
  | ldVxMem (x : Reg)
  /-- Family F with an unassigned key byte: no operation (R408). -/
  | nopF (sub : Byte)
deriving DecidableEq, Repr

end Sys2Proof
end

