-- ==== Sys2Proof/WellFormed.lean ====
section
/-! DEFINITION. Which instruction terms have an encoding. Every field is as wide as its place in the word, so the only
checks are the keys of the four NOP rows: a key that has a handler is not a NOP (spec/40_step_driver.md R408). -/

namespace Sys2Proof

/-- The family-0 keys with a handler (R307). -/
def assigned0 : List Nibble := [0x0, 0xE]

/-- The family-8 keys with a handler (R308). -/
def assigned8 : List Nibble := [0x0, 0x1, 0x2, 0x3, 0x4, 0x5, 0x6, 0x7, 0xE]

/-- The family-E keys with a handler (R309). -/
def assignedE : List Nibble := [0x1, 0xE]

/-- The family-F key bytes with a handler (R310). -/
def assignedF : List Byte := [0x07, 0x0A, 0x15, 0x18, 0x1E, 0x29, 0x33, 0x55, 0x65]

/-- Whether an instruction term is one the decoder can give: a NOP's key must be unassigned in its family (R408). -/
def Instr.wellFormed : Instr → Bool
  | .nop0 sub => !assigned0.contains sub
  | .nop8 sub => !assigned8.contains sub
  | .nopE sub => !assignedE.contains sub
  | .nopF sub => !assignedF.contains sub
  | .cls | .ret | .jp _ | .call _ | .seImm _ _ | .sneImm _ _ | .seReg _ _ | .ldImm _ _ | .addImm _ _
  | .ldReg _ _ | .orReg _ _ | .andReg _ _ | .xorReg _ _ | .addReg _ _ | .subReg _ _ | .shr _ _ | .subn _ _ | .shl _ _
  | .sneReg _ _ | .ldI _ | .jpV0 _ | .rnd _ _ | .drw _ _ _ | .skp _ | .sknp _
  | .ldVxDt _ | .ldVxK _ | .ldDtVx _ | .ldStVx _ | .addI _ | .ldF _ | .ldB _ | .ldMemVx _ | .ldVxMem _ => true

end Sys2Proof
end

