-- ==== Sys2Proof/Decode.lean ====
section
/-! DEFINITION. The opcode dispatcher of spec/30_encoding.md (R303 to R310) and, after it, the encoder written from the
same tables and the opcode table's rows. -/

namespace Sys2Proof

/-! ## The fields of a word (R14) -/

/-- w[15:12], the dispatch key (R303). -/
def fieldOp (w : Word) : Nibble := w.extractLsb' 12 4

/-- X = w[11:8]. -/
def fieldX (w : Word) : Reg := w.extractLsb' 8 4

/-- Y = w[7:4]. -/
def fieldY (w : Word) : Reg := w.extractLsb' 4 4

/-- N = w[3:0], also the key of families 0, 8 and E. -/
def fieldN (w : Word) : Nibble := w.extractLsb' 0 4

/-- NN = w[7:0], also the key of family F. -/
def fieldNN (w : Word) : Byte := w.extractLsb' 0 8

/-- NNN = w[11:0]. -/
def fieldNNN (w : Word) : Addr12 := w.extractLsb' 0 12

/-! ## The dispatcher -/

/-- Family 0, keyed on w[3:0] alone (R307, C2). -/
def decode0 (w : Word) : Instr :=
  match (fieldN w).toNat with
  | 0x0 => .cls
  | 0xE => .ret
  | _ => .nop0 (fieldN w)

/-- Family 8, keyed on w[3:0] (R308). -/
def decode8 (w : Word) : Instr :=
  match (fieldN w).toNat with
  | 0x0 => .ldReg (fieldX w) (fieldY w)
  | 0x1 => .orReg (fieldX w) (fieldY w)
  | 0x2 => .andReg (fieldX w) (fieldY w)
  | 0x3 => .xorReg (fieldX w) (fieldY w)
  | 0x4 => .addReg (fieldX w) (fieldY w)
  | 0x5 => .subReg (fieldX w) (fieldY w)
  | 0x6 => .shr (fieldX w) (fieldY w)
  | 0x7 => .subn (fieldX w) (fieldY w)
  | 0xE => .shl (fieldX w) (fieldY w)
  | _ => .nop8 (fieldN w)

/-- Family E, keyed on w[3:0] alone (R309, C2). -/
def decodeE (w : Word) : Instr :=
  match (fieldN w).toNat with
  | 0xE => .skp (fieldX w)
  | 0x1 => .sknp (fieldX w)
  | _ => .nopE (fieldN w)

/-- Family F, keyed on w[7:0] (R310). -/
def decodeF (w : Word) : Instr :=
  match (fieldNN w).toNat with
  | 0x07 => .ldVxDt (fieldX w)
  | 0x0A => .ldVxK (fieldX w)
  | 0x15 => .ldDtVx (fieldX w)
  | 0x18 => .ldStVx (fieldX w)
  | 0x1E => .addI (fieldX w)
  | 0x29 => .ldF (fieldX w)
  | 0x33 => .ldB (fieldX w)
  | 0x55 => .ldMemVx (fieldX w)
  | 0x65 => .ldVxMem (fieldX w)
  | _ => .nopF (fieldNN w)

/-- decode(w) of R303: the top nibble selects a handler (R306) or a family. Every word decodes (R305); the last arm is
top nibble 0xF, the only value left. -/
def decodeWord (w : Word) : Instr :=
  match (fieldOp w).toNat with
  | 0x0 => decode0 w
  | 0x1 => .jp (fieldNNN w)
  | 0x2 => .call (fieldNNN w)
  | 0x3 => .seImm (fieldX w) (fieldNN w)
  | 0x4 => .sneImm (fieldX w) (fieldNN w)
  | 0x5 => .seReg (fieldX w) (fieldY w)
  | 0x6 => .ldImm (fieldX w) (fieldNN w)
  | 0x7 => .addImm (fieldX w) (fieldNN w)
  | 0x8 => decode8 w
  | 0x9 => .sneReg (fieldX w) (fieldY w)
  | 0xA => .ldI (fieldNNN w)
  | 0xB => .jpV0 (fieldNNN w)
  | 0xC => .rnd (fieldX w) (fieldNN w)
  | 0xD => .drw (fieldX w) (fieldY w) (fieldN w)
  | 0xE => decodeE w
  | _ => decodeF w

/-- Two bytes as an instruction word, big-endian: the byte at the lower address is w[15:8] (R203, R300). -/
def wordOfBytes (hi lo : Byte) : Word := hi ++ lo

/-- The byte at the lower address, w[15:8] (R203). -/
def hiByte (w : Word) : Byte := w.extractLsb' 8 8

/-- The byte at the higher address, w[7:0] (R203). -/
def loByte (w : Word) : Byte := w.extractLsb' 0 8

/-- Why a list of bytes gives no instruction. -/
inductive DecodeError where
  /-- Fewer than the two bytes of an instruction (R300). No 16-bit word is rejected (R305). -/
  | truncated
deriving DecidableEq, Repr

/-- The instruction at the front of a list of bytes, with the rest of the list. Total on any bytes. -/
def decode : List Byte → Except DecodeError (Instr × List Byte)
  | hi :: lo :: rest => .ok (decodeWord (wordOfBytes hi lo), rest)
  | _ => .error .truncated

/-- The instruction the decoder reads from the opcode-table word w of nbits bits: one 16-bit word, stored big-endian
(R300). The bits above nbits are zero; no instruction is longer than 16 bits. -/
def decodeTableWord (nbits w : Nat) : Option Instr :=
  if 16 < nbits then none
  else
    let word : Word := BitVec.ofNat 16 (w % 2 ^ nbits)
    match decode [hiByte word, loByte word] with
    | .ok (i, _) => some i
    | .error _ => none

/-! ## The encoder (R301, R306 to R310, R313) -/

/-- A word from its four nibbles, the top one first (R11). -/
def word4 (op x y n : Nibble) : Word := op ++ x ++ y ++ n

/-- Format XNN (R301). -/
def wordXNN (op x : Nibble) (nn : Byte) : Word := op ++ x ++ nn

/-- Format NNN (R301). -/
def wordNNN (op : Nibble) (nnn : Addr12) : Word := op ++ nnn

/-- The word an assembler emits for an instruction: the canonical word of R313 where bits are ignored; for a NOP row,
which no assembler writes, zeros in the ignored bits (log 15). -/
def encode : Instr → Word
  | .cls => 0x00E0
  | .ret => 0x00EE
  | .nop0 sub => word4 0x0 0x0 0x0 sub
  | .jp nnn => wordNNN 0x1 nnn
  | .call nnn => wordNNN 0x2 nnn
  | .seImm x nn => wordXNN 0x3 x nn
  | .sneImm x nn => wordXNN 0x4 x nn
  | .seReg x y => word4 0x5 x y 0x0
  | .ldImm x nn => wordXNN 0x6 x nn
  | .addImm x nn => wordXNN 0x7 x nn
  | .ldReg x y => word4 0x8 x y 0x0
  | .orReg x y => word4 0x8 x y 0x1
  | .andReg x y => word4 0x8 x y 0x2
  | .xorReg x y => word4 0x8 x y 0x3
  | .addReg x y => word4 0x8 x y 0x4
  | .subReg x y => word4 0x8 x y 0x5
  | .shr x y => word4 0x8 x y 0x6
  | .subn x y => word4 0x8 x y 0x7
  | .shl x y => word4 0x8 x y 0xE
  | .nop8 sub => word4 0x8 0x0 0x0 sub
  | .sneReg x y => word4 0x9 x y 0x0
  | .ldI nnn => wordNNN 0xA nnn
  | .jpV0 nnn => wordNNN 0xB nnn
  | .rnd x nn => wordXNN 0xC x nn
  | .drw x y n => word4 0xD x y n
  | .skp x => wordXNN 0xE x 0x9E
  | .sknp x => wordXNN 0xE x 0xA1
  | .nopE sub => word4 0xE 0x0 0x0 sub
  | .ldVxDt x => wordXNN 0xF x 0x07
  | .ldVxK x => wordXNN 0xF x 0x0A
  | .ldDtVx x => wordXNN 0xF x 0x15
  | .ldStVx x => wordXNN 0xF x 0x18
  | .addI x => wordXNN 0xF x 0x1E
  | .ldF x => wordXNN 0xF x 0x29
  | .ldB x => wordXNN 0xF x 0x33
  | .ldMemVx x => wordXNN 0xF x 0x55
  | .ldVxMem x => wordXNN 0xF x 0x65
  | .nopF sub => wordXNN 0xF 0x0 sub

/-- The two bytes of an instruction as memory holds them (R203). -/
def encodeBytes (i : Instr) : List Byte := [hiByte (encode i), loByte (encode i)]

/-! ## The opcode table's rows -/

/-- A row of opcode_table.json: `w &&& mask = pat` selects it; a default row selects a word only when no other row of
its family (the same top nibble) does (spec/30_encoding.md §4). -/
structure OpcodeRow where
  mask : Word
  pat : Word
  isDefault : Bool
deriving DecidableEq, Repr

/-- The 38 rows, in the table's order: families 0 to 8. -/
def opcodeRowsLow : List OpcodeRow := [
  ⟨0xF00F, 0x0000, false⟩, ⟨0xF00F, 0x000E, false⟩, ⟨0xF000, 0x0000, true⟩,
  ⟨0xF000, 0x1000, false⟩, ⟨0xF000, 0x2000, false⟩, ⟨0xF000, 0x3000, false⟩, ⟨0xF000, 0x4000, false⟩,
  ⟨0xF000, 0x5000, false⟩, ⟨0xF000, 0x6000, false⟩, ⟨0xF000, 0x7000, false⟩,
  ⟨0xF00F, 0x8000, false⟩, ⟨0xF00F, 0x8001, false⟩, ⟨0xF00F, 0x8002, false⟩, ⟨0xF00F, 0x8003, false⟩,
  ⟨0xF00F, 0x8004, false⟩, ⟨0xF00F, 0x8005, false⟩, ⟨0xF00F, 0x8006, false⟩, ⟨0xF00F, 0x8007, false⟩,
  ⟨0xF00F, 0x800E, false⟩, ⟨0xF000, 0x8000, true⟩]

/-- The rows of families 9 to F. -/
def opcodeRowsHigh : List OpcodeRow := [
  ⟨0xF000, 0x9000, false⟩, ⟨0xF000, 0xA000, false⟩, ⟨0xF000, 0xB000, false⟩, ⟨0xF000, 0xC000, false⟩,
  ⟨0xF000, 0xD000, false⟩, ⟨0xF00F, 0xE00E, false⟩, ⟨0xF00F, 0xE001, false⟩, ⟨0xF000, 0xE000, true⟩,
  ⟨0xF0FF, 0xF007, false⟩, ⟨0xF0FF, 0xF00A, false⟩, ⟨0xF0FF, 0xF015, false⟩, ⟨0xF0FF, 0xF018, false⟩,
  ⟨0xF0FF, 0xF01E, false⟩, ⟨0xF0FF, 0xF029, false⟩, ⟨0xF0FF, 0xF033, false⟩, ⟨0xF0FF, 0xF055, false⟩,
  ⟨0xF0FF, 0xF065, false⟩, ⟨0xF000, 0xF000, true⟩]

/-- All 38 rows in the table's order. -/
def opcodeRows : List OpcodeRow := opcodeRowsLow ++ opcodeRowsHigh

/-- Whether a row's pattern matches a word. -/
def OpcodeRow.hits (r : OpcodeRow) (w : Word) : Bool := w &&& r.mask == r.pat

/-- Whether a row selects a word: its pattern matches and, for a default row, no other row's does. -/
def OpcodeRow.selects (r : OpcodeRow) (w : Word) : Bool :=
  r.hits w && (!r.isDefault || !opcodeRows.any fun q => !q.isDefault && q.hits w)

/-- The place of an instruction's row in the opcode table, from 0. -/
def Instr.row : Instr → Nat
  | .cls => 0 | .ret => 1 | .nop0 _ => 2 | .jp _ => 3 | .call _ => 4 | .seImm _ _ => 5 | .sneImm _ _ => 6
  | .seReg _ _ => 7 | .ldImm _ _ => 8 | .addImm _ _ => 9 | .ldReg _ _ => 10 | .orReg _ _ => 11 | .andReg _ _ => 12
  | .xorReg _ _ => 13 | .addReg _ _ => 14 | .subReg _ _ => 15 | .shr _ _ => 16 | .subn _ _ => 17 | .shl _ _ => 18
  | .nop8 _ => 19 | .sneReg _ _ => 20 | .ldI _ => 21 | .jpV0 _ => 22 | .rnd _ _ => 23 | .drw _ _ _ => 24
  | .skp _ => 25 | .sknp _ => 26 | .nopE _ => 27 | .ldVxDt _ => 28 | .ldVxK _ => 29 | .ldDtVx _ => 30
  | .ldStVx _ => 31 | .addI _ => 32 | .ldF _ => 33 | .ldB _ => 34 | .ldMemVx _ => 35 | .ldVxMem _ => 36 | .nopF _ => 37

/-- The bits of a word that an instruction's row reads: its key bits and its operand fields; the others are ignored
(R301, the '-' bits of the table's encoding column and, for a NOP row, all but the family and its key). -/
def Instr.readBits : Instr → Word
  | .cls | .ret | .nop0 _ | .nop8 _ | .nopE _ => 0xF00F
  | .seReg _ _ | .sneReg _ _ => 0xFFF0
  | .skp _ | .sknp _ => 0xFF0F
  | .nopF _ => 0xF0FF
  | .jp _ | .call _ | .seImm _ _ | .sneImm _ _ | .ldImm _ _ | .addImm _ _ | .ldReg _ _ | .orReg _ _ | .andReg _ _
  | .xorReg _ _ | .addReg _ _ | .subReg _ _ | .shr _ _ | .subn _ _ | .shl _ _ | .ldI _ | .jpV0 _ | .rnd _ _ | .drw _ _ _
  | .ldVxDt _ | .ldVxK _ | .ldDtVx _ | .ldStVx _ | .addI _ | .ldF _ | .ldB _ | .ldMemVx _ | .ldVxMem _ => 0xFFFF

end Sys2Proof
end

