-- ==== Sys2Proof/Config.lean ====
section
/-! DEFINITION. What one CORE instance fixes (the parameters of spec/00_scope.md R10 and the font table of
spec/70_reset_and_hazards.md R1403), and the model's one free value, the random byte of spec/40_step_driver.md R409. -/

namespace Sys2Proof

/-- SHIFT_SRC (R10, R613): which register 8XY6 and 8XYE shift. -/
inductive ShiftSrc where
  /-- The default: V[X] is shifted in place. -/
  | vx
  /-- V[Y] is shifted into V[X]. -/
  | vy
deriving DecidableEq, Repr

/-- DRAW_EDGE (R10, R802): what DXYN does with sprite pixels past the right or bottom edge. -/
inductive DrawEdge where
  /-- The default: the pixel is dropped. -/
  | clip
  /-- The pixel is drawn at its coordinates modulo 64 and 32. -/
  | wrap
deriving DecidableEq, Repr

/-- The parameters of one instance. They are fixed for the machine and no program can read or write them (R123). -/
structure Config where
  /-- FONT_BASE: any address with FONT_BASE + 80 ≤ 0x200 (R10), so 0 to 432. -/
  fontBase : Fin 433
  /-- LOGIC_VF_RESET: whether OR, AND and XOR write VF ← 0 (R604). -/
  logicVfReset : Bool
  /-- SHIFT_SRC (R613). -/
  shiftSrc : ShiftSrc
  /-- DRAW_EDGE (R802). -/
  drawEdge : DrawEdge
  /-- The font bytes (R1403: "A model should take the table as configuration next to FONT_BASE"). -/
  font : Vector Byte 80
deriving DecidableEq, Repr

/-- The defaults of R10 and the font of R1403 (log 2). -/
def Config.default : Config where
  fontBase := 0x050
  logicVfReset := false
  shiftSrc := .vx
  drawEdge := .clip
  font := fontTable

/-- FREE VALUE (log 3): the n-th byte of the random source. R409: one byte per Step, any value, under no law. It has no
body, so no proof can rest on its value. -/
opaque Config.freeRnd : Nat → Byte

end Sys2Proof
end

