-- ==== Sys2Proof/Machine/State.lean ====
section
/-! DEFINITION. The state of CORE as plain data: everything spec/10_state.md gives it (R100 to R127), the host's input
ports, the host-interface bookkeeping of spec/70_reset_and_hazards.md R1412 and the parameters of the instance; why a
model operation can stop; and the state after reset. -/

namespace Sys2Proof.Machine

/-- FAULT_CODE: what the fault latch holds (R122; the codes of spec/60_exceptions.md R1301). -/
inductive FaultCode where
  /-- 0: no fault latched. -/
  | none
  /-- 1: PC > 0xFFE at the start of a Step (R205). -/
  | fetchRange
  /-- 2: CALL with SP = 16 (R504). -/
  | stackOverflow
  /-- 3: RET with SP = 0 (R502). -/
  | stackUnderflow
  /-- 4: an I-relative block reaches beyond 0xFFF (R206). -/
  | memRange
  /-- 5: key number V[X] > 15 (R900). -/
  | keyRange
deriving DecidableEq, Repr

/-- Memory: the bytes that differ from the reset contents, as (address, byte) pairs. `Memory.wf` says its canonical
form; an unlisted address reads as `resetByte` says. -/
abbrev Memory := List Host.Cell

/-- FB: 32 rows of 64 columns, one bit a pixel (R116). Bit x of row y is the pixel FB[y][x]. -/
abbrev Framebuffer := Vector (BitVec 64) 32

/-- The state of one CORE instance (R126). -/
structure State where
  /-- The instance's parameters (R10). No operation changes them (R123; log 1). -/
  cfg : Config
  /-- V[0] to V[15] (R100). -/
  v : Vector Byte 16
  /-- PC (R105). -/
  pc : Word
  /-- I, the index register (R108). -/
  index : Word
  /-- SP, the number of live stack entries, 0 to 16 (R110). -/
  sp : Fin 17
  /-- STACK[0] to STACK[15] (R110). -/
  stack : Vector Word 16
  /-- DT, the delay timer (R113). -/
  dt : Byte
  /-- ST, the sound timer (R113). -/
  st : Byte
  /-- Memory 0x000 to 0xFFF (R115). -/
  mem : Memory
  /-- FB, the framebuffer (R116). -/
  fb : Framebuffer
  /-- KEY[15:0], written by the host only; bit k is key k, 1 = pressed (R118). -/
  keys : BitVec 16
  /-- RND[7:0], the byte the host has put on the port for the next Step; without one the byte is the free value
  `Config.freeRnd rndCount` (R124, R409; logs 3 and 4). -/
  rnd : Option Byte
  /-- The model's own: how many Steps have used up a random byte (log 3). -/
  rndCount : Nat
  /-- IR, the last fetched word (R120). -/
  ir : Word
  /-- FAULT_CODE (R122). -/
  faultCode : FaultCode
  /-- FAULT_PC (R122). -/
  faultPc : Word
  /-- FAULT_IR (R122). -/
  faultIr : Word
  /-- loaded_since_reset, bookkeeping of the host interface (R1412). -/
  loaded : Bool
  /-- stepped_since_reset, bookkeeping of the host interface (R1412). -/
  stepped : Bool
deriving DecidableEq, Repr

/-- Why the model stops. No Step ever stops: every condition the spec names is a VM fault, which is a next state with
the latch set (R1304). -/
inductive Fault where
  /-- An access primitive was given an address above 0xFFF, which does not exist (R13, R203: "defined only for
  0 ≤ a ≤ 0xFFF"). Raised by `State.memRead` and `State.memWrite`; safe: the machine stops where the spec defines
  nothing. No instruction reaches it, since R205 and R206 check first (log 11). -/
  | noSuchAddress (a : Nat)
deriving DecidableEq, Repr

/-- Why the model gives no meaning. -/
inductive Refusal where
  /-- An instruction whose arm has no meaning yet. Raised by `exec`'s arms only; safe. No arm uses it. -/
  | notModelled (mnemonic : String)
  /-- LOAD after a STEP (R1412: "LOAD after a STEP is outside this spec: a model refuses it"). Raised by the host
  operation `State.load`, by no instruction; safe. -/
  | loadAfterStep
deriving DecidableEq, Repr

/-- The state after construction with the parameters `c` (R127, R1401): memory lists nothing, so it reads as its reset
contents; no key is pressed (R119); the host has put no byte on RND (log 4). -/
def State.resetWith (c : Config) : State where
  cfg := c
  v := Vector.replicate 16 0
  pc := 0x200
  index := 0
  sp := 0
  stack := Vector.replicate 16 0
  dt := 0
  st := 0
  mem := []
  fb := Vector.replicate 32 0
  keys := 0
  rnd := Option.none
  rndCount := 0
  ir := 0
  faultCode := .none
  faultPc := 0
  faultIr := 0
  loaded := false
  stepped := false

/-- The machine right after reset, with the default parameters of R10. -/
def State.reset : State := State.resetWith Config.default

end Sys2Proof.Machine
end

