-- ==== Sys2Proof/Machine/Ops.lean ====
section
/-! DEFINITION. The named operations over registers, memory, the stack and the framebuffer; taking a VM fault and the
host's acknowledgement of one; and what a Step does around an instruction's handler (spec/10_state.md,
spec/20_memory.md, spec/40_step_driver.md, spec/60_exceptions.md). -/

namespace Sys2Proof.Machine

/-- What a meaning, or a step, answers. -/
abbrev Result := Host.Outcome State Fault Refusal

/-! ## General registers (R100) -/

/-- V[x]. -/
def State.reg (s : State) (x : Reg) : Byte := s.v[x.toNat]'x.isLt

/-- V[x] ← b. -/
def State.setReg (s : State) (x : Reg) (b : Byte) : State := { s with v := s.v.set x.toNat b x.isLt }

/-- V[k], V[k+1], … ← the bytes of a list. -/
def State.setRegs (s : State) (k : Nat) : List Byte → State
  | [] => s
  | b :: bs => (s.setReg (BitVec.ofNat 4 k) b).setRegs (k + 1) bs

/-- V[0], …, V[n−1]. -/
def State.regList (s : State) (n : Nat) : List Byte := (List.range n).map fun k => s.reg (BitVec.ofNat 4 k)

/-! ## Program counter (R105, R106, R500) -/

/-- pc ← target. -/
def State.setPc (s : State) (target : Word) : State := { s with pc := target }

/-- The fetch advance of R403: PC ← (PC + 2) mod 65536. -/
def State.advance (s : State) : State := s.setPc (s.pc + 2)

/-- A skip on top of the fetch advance (R500): PC ← (PC + 2) mod 65536 when the condition holds. -/
def State.skipIf (s : State) (cond : Bool) : State := if cond then s.setPc (s.pc + 2) else s

/-- A 12-bit address as a PC or I value: zero-extended (R302). -/
def zext16 (nnn : Addr12) : Word := nnn.setWidth 16

/-! ## Memory (R115, R200 to R206) -/

/-- What an address reads as after reset, and so what an unlisted address reads as: the font at FONT_BASE to
FONT_BASE + 79, 0x00 elsewhere (R115, R1401, R1403). -/
def resetByte (c : Config) (a : Nat) : Byte :=
  if h : c.fontBase.val ≤ a ∧ a < c.fontBase.val + 80 then c.font[a - c.fontBase.val] else 0

/-- The byte at an address. -/
def Memory.read (c : Config) : Memory → Nat → Byte
  | [], a => resetByte c a
  | (k, b) :: m, a => if k = a then b else Memory.read c m a

/-- The list with address `a` listed as `b`, in its place in the rising order. -/
def Memory.put (a : Nat) (b : Byte) : Memory → Memory
  | [] => [(a, b)]
  | (k, x) :: m => if a < k then (a, b) :: (k, x) :: m else if a = k then (a, b) :: m else (k, x) :: Memory.put a b m

/-- The list with address `a` not listed. -/
def Memory.drop (a : Nat) (m : Memory) : Memory := m.filter fun e => e.1 != a

/-- memory[a] ← b, keeping the canonical form: a byte equal to the reset contents is not listed. -/
def Memory.write (c : Config) (m : Memory) (a : Nat) (b : Byte) : Memory :=
  if b = resetByte c a then Memory.drop a m else Memory.put a b m

/-- The canonical form: addresses strictly rising, all below 4096, and no entry equal to what an unlisted address reads
as. -/
abbrev Memory.wf (c : Config) (m : Memory) : Prop :=
  m.Pairwise (fun e f => e.1 < f.1) ∧ ∀ e ∈ m, e.1 < 4096 ∧ e.2 ≠ resetByte c e.1

/-- memory[a], memory[a+1], … ← the bytes of a list. -/
def Memory.writeList (c : Config) (m : Memory) (a : Nat) : List Byte → Memory
  | [] => m
  | b :: bs => Memory.writeList c (Memory.write c m a b) (a + 1) bs

/-- MemRead(a, 1) (R13, R203): defined only for 0 ≤ a ≤ 0xFFF. -/
def State.memRead (s : State) (a : Nat) : Except Fault Byte :=
  if a ≤ 0xFFF then .ok (Memory.read s.cfg s.mem a) else .error (.noSuchAddress a)

/-- MemWrite(a, 1, b) (R13, R203): defined only for 0 ≤ a ≤ 0xFFF. -/
def State.memWrite (s : State) (a : Nat) (b : Byte) : Except Fault State :=
  if a ≤ 0xFFF then .ok { s with mem := Memory.write s.cfg s.mem a b } else .error (.noSuchAddress a)

/-- MemRead of the n consecutive addresses a, a+1, …; sums are exact (R204). -/
def State.loadBlock (s : State) (a : Nat) : Nat → Except Fault (List Byte)
  | 0 => .ok []
  | n + 1 =>
    match s.memRead a with
    | .error f => .error f
    | .ok b =>
      match s.loadBlock (a + 1) n with
      | .error f => .error f
      | .ok bs => .ok (b :: bs)

/-- MemWrite of the bytes of a list at a, a+1, …; sums are exact (R204). -/
def State.storeBlock (s : State) (a : Nat) : List Byte → Except Fault State
  | [] => .ok s
  | b :: bs =>
    match s.memWrite a b with
    | .error f => .error f
    | .ok s' => s'.storeBlock (a + 1) bs

/-- The failing condition of check_block(len) (R206): the block is not empty and its last address I + len − 1 is above
0xFFF. -/
def State.blockOut (s : State) (len : Nat) : Bool := decide (0 < len ∧ 0xFFF < s.index.toNat + len - 1)

/-- An access primitive's answer carried on into a meaning's. -/
def orStop {α : Type} (r : Except Fault α) (k : α → Result) : Result :=
  match r with
  | .error f => .fault f
  | .ok a => k a

/-! ## Call stack (R110, R111) -/

/-- STACK[k]. -/
def State.slot (s : State) (k : Fin 16) : Word := s.stack[k]

/-- Push: STACK[SP] ← w, SP ← SP + 1; none when SP = 16. -/
def State.push (s : State) (w : Word) : Option State :=
  if h : s.sp.val < 16 then
    some { s with stack := s.stack.set s.sp.val w h, sp := ⟨s.sp.val + 1, by omega⟩ }
  else none

/-- Pop: SP ← SP − 1, with the word STACK[SP] the new SP names; none when SP = 0. The slot keeps its value (R111). -/
def State.pop (s : State) : Option (Word × State) :=
  if h : 0 < s.sp.val then
    some (s.slot ⟨s.sp.val - 1, by omega⟩, { s with sp := ⟨s.sp.val - 1, by omega⟩ })
  else none

/-! ## Framebuffer (R116) -/

/-- All pixels off (R117, R501). -/
def blankScreen : Framebuffer := Vector.replicate 32 0

/-- FB[y][x]; off outside the 64 × 32 grid. -/
def pixelOf (fb : Framebuffer) (x y : Nat) : Bool := if h : y < 32 then fb[y].getLsbD x else false

/-- FB[y][x] ← FB[y][x] ^ 1. -/
def flipPixel (fb : Framebuffer) (x y : Nat) : Framebuffer :=
  if h : y < 32 then fb.set y (fb[y] ^^^ (1#64 <<< x)) else fb

/-- FB[y][x] of a state. -/
def State.pixel (s : State) (x y : Nat) : Bool := pixelOf s.fb x y

/-! ## Keypad and random byte (R118, R409) -/

/-- KEY[k] = 1. -/
def State.keyDown (s : State) (k : Nat) : Bool := s.keys.getLsbD k

/-- min { k | KEY[k] = 1 }, or none when every key is released (R903). -/
def State.lowestKey (s : State) : Option Nat := (List.range 16).find? s.keyDown

/-- RND of this Step: the byte the host put on the port, or the random source's (R409; logs 3 and 4). -/
def State.rndByte (s : State) : Byte :=
  match s.rnd with
  | some b => b
  | Option.none => Config.freeRnd s.rndCount

/-! ## Fetch (R203, R205, R402) -/

/-- The word at PC: memory[PC] ++ memory[PC+1]. -/
def State.fetchWord (s : State) : Except Fault Word :=
  match s.memRead s.pc.toNat, s.memRead (s.pc.toNat + 1) with
  | .ok hi, .ok lo => .ok (wordOfBytes hi lo)
  | .error f, _ => .error f
  | .ok _, .error f => .error f

/-- The fetch range check of R205: PC > 0xFFE. -/
def State.fetchOut (s : State) : Bool := decide (0xFFE < s.pc.toNat)

/-- The two bytes of an instruction word stored at PC and PC + 1, where the next fetch reads them. Nothing is stored
when PC > 0xFFE, where no word can be fetched. -/
def State.placeWord (s : State) (w : Word) : State :=
  if s.fetchOut then s
  else { s with mem := Memory.writeList s.cfg s.mem s.pc.toNat [hiByte w, loByte w] }

/-! ## VM faults (spec/60_exceptions.md) -/

/-- FAULT_IR of a fault: 0x0000 for FETCH_RANGE, which fetches nothing, else the fetched word (R1302, R1304). The state is
the one at the start of the Step, so the fetched word is the word its PC addresses. -/
def State.faultWord (s : State) (c : FaultCode) : Word :=
  match c, s.fetchWord with
  | .fetchRange, _ => 0
  | _, .ok w => w
  | _, .error _ => 0

/-- Fault entry, R1304: `raise Fault(c)` in the Step that starts at state `s`. The state is that one, S0, and the latch
records the code, the PC and the word. -/
def State.takeFault (s : State) (c : FaultCode) : State :=
  { s with faultCode := c, faultPc := s.pc, faultIr := s.faultWord c }

/-- ACK, R1306: the latch is cleared and nothing else changes; with no fault latched it does nothing. ACK and then STEP
is the only resume (R1307). -/
def State.ack (s : State) : State :=
  if s.faultCode = .none then s else { s with faultCode := .none, faultPc := 0, faultIr := 0 }

/-- Whether the latch holds a fault (R1305). -/
def State.latched (s : State) : Bool := decide (s.faultCode ≠ .none)

/-! ## The rest of a Step (spec/40_step_driver.md) -/

/-- A timer's decrement (R406): minus 1 while above 0. -/
def tick (t : Byte) : Byte := if t = 0 then 0 else t - 1

/-- stepped_since_reset ← true (R1412). -/
def State.markStepped (s : State) : State := { s with stepped := true }

/-- What a Step does to the state its handler completed with: IR holds the fetched word (R120, R402), both timers tick
(R406), and this Step's random byte is used up (R409). -/
def State.complete (s : State) (w : Word) : State :=
  { s with ir := w, dt := tick s.dt, st := tick s.st, rnd := Option.none, rndCount := s.rndCount + 1 }

/-- The end of a Step: a faulted state keeps the rollback of R1304, with neither IR nor a timer touched (R407); a
completed one gets `State.complete`. -/
def State.finish (s : State) (w : Word) : State :=
  (if s.latched then s else s.complete w).markStepped

end Sys2Proof.Machine
end

