-- ==== Sys2Proof/Machine/Operands.lean ====
section
/-! DEFINITION. The operands that are not plain register reads: the shift source, the font address, the key number, the
BCD digits and the place of a sprite pixel. -/

namespace Sys2Proof.Machine

/-- src() of R613: V[X], or V[Y] when SHIFT_SRC = VY. -/
def State.shiftOperand (s : State) (x y : Reg) : Byte :=
  match s.cfg.shiftSrc with
  | .vx => s.reg x
  | .vy => s.reg y

/-- FONT_BASE + 5 × (V[X] & 0xF) (R702). -/
def State.glyphAddr (s : State) (x : Reg) : Word :=
  BitVec.ofNat 16 (s.cfg.fontBase.val + 5 * (s.reg x &&& 0xF).toNat)

/-- The failing condition of R900: the key number V[X] is above 15. -/
def State.keyOut (s : State) (x : Reg) : Bool := decide (15 < (s.reg x).toNat)

/-- The hundreds, tens and units of a byte (R1100). -/
def bcdDigits (b : Byte) : List Byte :=
  [BitVec.ofNat 8 (b.toNat / 100), BitVec.ofNat 8 (b.toNat / 10 % 10), BitVec.ofNat 8 (b.toNat % 10)]

/-- x0 = V[X] mod 64 (R800, R802). -/
def State.spriteX (s : State) (x : Reg) : Nat := (s.reg x).toNat % 64

/-- y0 = V[Y] mod 32 (R800, R802). -/
def State.spriteY (s : State) (y : Reg) : Nat := (s.reg y).toNat % 32

/-- place(ax, ay) of R802: where a sprite pixel is drawn, or none when it is dropped. -/
def place (edge : DrawEdge) (ax ay : Nat) : Option (Nat × Nat) :=
  match edge with
  | .clip => if 64 ≤ ax ∨ 32 ≤ ay then none else some (ax, ay)
  | .wrap => some (ax % 64, ay % 32)

end Sys2Proof.Machine
end

