-- ==== Sys2Proof/Machine/Block.lean ====
section
/-! DEFINITION. Memory block transfer (spec/47_memory_block.md): the whole block is checked before any access (R206), and
I is left unchanged. -/

namespace Sys2Proof.Machine

/-- LD B, Vx (R1100). -/
def execLdB (x : Reg) (s : State) : Result :=
  if s.blockOut 3 then .next (s.takeFault .memRange)
  else orStop (s.advance.storeBlock s.index.toNat (bcdDigits (s.reg x))) .next

/-- LD [I], Vx (R1101). -/
def execLdMemVx (x : Reg) (s : State) : Result :=
  if s.blockOut (x.toNat + 1) then .next (s.takeFault .memRange)
  else orStop (s.advance.storeBlock s.index.toNat (s.regList (x.toNat + 1))) .next

/-- LD Vx, [I] (R1102). -/
def execLdVxMem (x : Reg) (s : State) : Result :=
  if s.blockOut (x.toNat + 1) then .next (s.takeFault .memRange)
  else orStop (s.loadBlock s.index.toNat (x.toNat + 1)) fun bytes => .next (s.advance.setRegs 0 bytes)

end Sys2Proof.Machine
end

