-- ==== Sys2Proof/Machine/Flags.lean ====
section
/-! DEFINITION. The values written to VF (spec/10_state.md R104) and the order in which a result and a flag are written
(spec/42_register_ops.md R600, R604). -/

namespace Sys2Proof.Machine

/-- bool(c) as a byte (R12). -/
def flagByte (c : Bool) : Byte := if c then 1 else 0

/-- bool(a + b > 255), the sum exact (R608). -/
def carryFlag (a b : Byte) : Byte := flagByte (decide (255 < a.toNat + b.toNat))

/-- bool(a ≥ b): no borrow in a − b (R609, R611, C5). -/
def noBorrowFlag (a b : Byte) : Byte := flagByte (decide (b.toNat ≤ a.toNat))

/-- s & 1: the bit a right shift loses (R610). -/
def lowBitFlag (s : Byte) : Byte := flagByte (s.getLsbD 0)

/-- (s >> 7) & 1: the bit a left shift loses (R612). -/
def highBitFlag (s : Byte) : Byte := flagByte (s.getLsbD 7)

/-- R600: the result goes to V[x] first and the flag to VF last, so that for x = F the flag stays. -/
def State.setResultFlag (s : State) (x : Reg) (r f : Byte) : State := (s.setReg x r).setReg flagReg f

/-- R604: the result of OR, AND or XOR goes to V[x], and VF ← 0 after it when LOGIC_VF_RESET is true. -/
def State.setLogic (s : State) (x : Reg) (r : Byte) : State :=
  if s.cfg.logicVfReset then s.setResultFlag x r 0 else s.setReg x r

end Sys2Proof.Machine
end

