-- ==== Sys2Proof/Machine/Display.lean ====
section
/-! DEFINITION. The display (spec/44_display.md): DXYN draws a sprite by XOR and reports collision in VF. -/

namespace Sys2Proof.Machine

/-- A framebuffer being drawn on, and whether a pixel went from on to off so far. -/
abbrev Canvas := Framebuffer × Bool

/-- One set sprite bit at (ax, ay): a visible pixel is XORed, and one that was on is a collision (R800 to R802). -/
def drawPixel (edge : DrawEdge) (ax ay : Nat) (d : Canvas) : Canvas :=
  match place edge ax ay with
  | none => d
  | some (px, py) => (flipPixel d.1 px py, d.2 || pixelOf d.1 px py)

/-- Columns c = 8 − n to 7 of a row: sprite bit 7 − c is drawn at column x0 + c (R800, R805). -/
def drawColumns (edge : DrawEdge) (x0 ay : Nat) (b : Byte) : Nat → Canvas → Canvas
  | 0, d => d
  | n + 1, d => drawColumns edge x0 ay b n (if b.getLsbD n then drawPixel edge (x0 + (7 - n)) ay d else d)

/-- Rows drawn downward from row ay (R800, R805). -/
def drawRows (edge : DrawEdge) (x0 : Nat) : Nat → List Byte → Canvas → Canvas
  | _, [], d => d
  | ay, b :: bs, d => drawRows edge x0 (ay + 1) bs (drawColumns edge x0 ay b 8 d)

/-- DRW Vx, Vy, N (R800, R803, R804): the coordinates are read and the block checked first; VF gets the collision. -/
def execDrw (x y : Reg) (n : Nibble) (s : State) : Result :=
  if s.blockOut n.toNat then .next (s.takeFault .memRange)
  else orStop (s.loadBlock s.index.toNat n.toNat) fun rows =>
    let d := drawRows s.cfg.drawEdge (s.spriteX x) (s.spriteY y) rows (s.fb, false)
    .next ({ s.advance with fb := d.1 }.setReg flagReg (flagByte d.2))

end Sys2Proof.Machine
end

