-- ==== Sys2Proof/Machine/Flow.lean ====
section
/-! DEFINITION. Flow control (spec/41_flow_control.md): CLS, RET, JP, CALL, the register skips, JP V0. Every meaning
takes the state at the start of the Step; the pseudocode's PC is that of `State.advance` (R403). -/

namespace Sys2Proof.Machine

/-- CLS (R501). -/
def execCls (s : State) : Result := .next { s.advance with fb := blankScreen }

/-- RET (R502). -/
def execRet (s : State) : Result :=
  match s.advance.pop with
  | none => .next (s.takeFault .stackUnderflow)
  | some (target, t) => .next (t.setPc target)

/-- JP NNN (R503). -/
def execJp (nnn : Addr12) (s : State) : Result := .next (s.advance.setPc (zext16 nnn))

/-- CALL NNN (R504). -/
def execCall (nnn : Addr12) (s : State) : Result :=
  match s.advance.push s.advance.pc with
  | none => .next (s.takeFault .stackOverflow)
  | some t => .next (t.setPc (zext16 nnn))

/-- SE Vx, NN (R505). -/
def execSeImm (x : Reg) (nn : Byte) (s : State) : Result := .next (s.advance.skipIf (s.reg x == nn))

/-- SNE Vx, NN (R506). -/
def execSneImm (x : Reg) (nn : Byte) (s : State) : Result := .next (s.advance.skipIf (s.reg x != nn))

/-- SE Vx, Vy (R507). -/
def execSeReg (x y : Reg) (s : State) : Result := .next (s.advance.skipIf (s.reg x == s.reg y))

/-- SNE Vx, Vy (R508). -/
def execSneReg (x y : Reg) (s : State) : Result := .next (s.advance.skipIf (s.reg x != s.reg y))

/-- JP V0, NNN (R509). -/
def execJpV0 (nnn : Addr12) (s : State) : Result :=
  .next (s.advance.setPc (zext16 nnn + (s.reg 0).setWidth 16))

end Sys2Proof.Machine
end

