-- ==== Sys2Proof/Machine/IndexRandom.lean ====
section
/-! DEFINITION. Index register and randomization (spec/43_index_random.md). -/

namespace Sys2Proof.Machine

/-- LD I, NNN (R700). -/
def execLdI (nnn : Addr12) (s : State) : Result := .next { s.advance with index := zext16 nnn }

/-- ADD I, Vx (R701): modulo 65536, no flag. -/
def execAddI (x : Reg) (s : State) : Result :=
  .next { s.advance with index := s.index + (s.reg x).setWidth 16 }

/-- LD F, Vx (R702). -/
def execLdF (x : Reg) (s : State) : Result := .next { s.advance with index := s.glyphAddr x }

/-- RND Vx, NN (R703). -/
def execRnd (x : Reg) (nn : Byte) (s : State) : Result := .next (s.advance.setReg x (s.rndByte &&& nn))

end Sys2Proof.Machine
end

