-- ==== Sys2Proof/Machine/Input.lean ====
section
/-! DEFINITION. Input (spec/45_input.md): the key skips and the key wait. -/

namespace Sys2Proof.Machine

/-- SKP Vx (R900, R901). -/
def execSkp (x : Reg) (s : State) : Result :=
  if s.keyOut x then .next (s.takeFault .keyRange)
  else .next (s.advance.skipIf (s.keyDown (s.reg x).toNat))

/-- SKNP Vx (R900, R902). -/
def execSknp (x : Reg) (s : State) : Result :=
  if s.keyOut x then .next (s.takeFault .keyRange)
  else .next (s.advance.skipIf (!s.keyDown (s.reg x).toNat))

/-- LD Vx, K (R903): the lowest pressed key, or PC back to this instruction. -/
def execLdVxK (x : Reg) (s : State) : Result :=
  match s.lowestKey with
  | some k => .next (s.advance.setReg x (BitVec.ofNat 8 k))
  | none => .next (s.advance.setPc (s.advance.pc - 2))

end Sys2Proof.Machine
end

