-- ==== Sys2Proof/Machine/Nop.lean ====
section
/-! DEFINITION. The no-op handler of the four families (spec/40_step_driver.md R408): only the fetch advance of R403. -/

namespace Sys2Proof.Machine

/-- The handler of every unassigned secondary value (R408): nothing but the +2 of R403. -/
def noOperation (s : State) : Result := .next s.advance

/-- NOP of family 0 (R307, R408). -/
def execNop0 (_sub : Nibble) (s : State) : Result := noOperation s

/-- NOP of family 8 (R308, R408). -/
def execNop8 (_sub : Nibble) (s : State) : Result := noOperation s

/-- NOP of family E (R309, R408). -/
def execNopE (_sub : Nibble) (s : State) : Result := noOperation s

/-- NOP of family F (R310, R408). -/
def execNopF (_sub : Byte) (s : State) : Result := noOperation s

end Sys2Proof.Machine
end

