-- ==== Sys2Proof/Machine/RegOps.lean ====
section
/-! DEFINITION. Register and constant operations (spec/42_register_ops.md): operands read first, the result written to
V[X], the flag to VF last (R600). -/

namespace Sys2Proof.Machine

/-- LD Vx, NN (R601). -/
def execLdImm (x : Reg) (nn : Byte) (s : State) : Result := .next (s.advance.setReg x nn)

/-- ADD Vx, NN (R602): no flag. -/
def execAddImm (x : Reg) (nn : Byte) (s : State) : Result := .next (s.advance.setReg x (s.reg x + nn))

/-- LD Vx, Vy (R603). -/
def execLdReg (x y : Reg) (s : State) : Result := .next (s.advance.setReg x (s.reg y))

/-- OR Vx, Vy (R605). -/
def execOrReg (x y : Reg) (s : State) : Result := .next (s.advance.setLogic x (s.reg x ||| s.reg y))

/-- AND Vx, Vy (R606). -/
def execAndReg (x y : Reg) (s : State) : Result := .next (s.advance.setLogic x (s.reg x &&& s.reg y))

/-- XOR Vx, Vy (R607). -/
def execXorReg (x y : Reg) (s : State) : Result := .next (s.advance.setLogic x (s.reg x ^^^ s.reg y))

/-- ADD Vx, Vy (R608). -/
def execAddReg (x y : Reg) (s : State) : Result :=
  .next (s.advance.setResultFlag x (s.reg x + s.reg y) (carryFlag (s.reg x) (s.reg y)))

/-- SUB Vx, Vy (R609). -/
def execSubReg (x y : Reg) (s : State) : Result :=
  .next (s.advance.setResultFlag x (s.reg x - s.reg y) (noBorrowFlag (s.reg x) (s.reg y)))

/-- SHR Vx (R610, R613). -/
def execShr (x y : Reg) (s : State) : Result :=
  .next (s.advance.setResultFlag x (s.shiftOperand x y >>> 1) (lowBitFlag (s.shiftOperand x y)))

/-- SUBN Vx, Vy (R611). -/
def execSubn (x y : Reg) (s : State) : Result :=
  .next (s.advance.setResultFlag x (s.reg y - s.reg x) (noBorrowFlag (s.reg y) (s.reg x)))

/-- SHL Vx (R612, R613). -/
def execShl (x y : Reg) (s : State) : Result :=
  .next (s.advance.setResultFlag x (s.shiftOperand x y <<< 1) (highBitFlag (s.shiftOperand x y)))

end Sys2Proof.Machine
end

