-- ==== Sys2Proof/Machine/Timers.lean ====
section
/-! DEFINITION. Timers (spec/46_timers.md). The Step's own decrement (R406) is `State.complete`'s, after the handler. -/

namespace Sys2Proof.Machine

/-- LD Vx, DT (R1000). -/
def execLdVxDt (x : Reg) (s : State) : Result := .next (s.advance.setReg x s.dt)

/-- LD DT, Vx (R1001). -/
def execLdDtVx (x : Reg) (s : State) : Result := .next { s.advance with dt := s.reg x }

/-- LD ST, Vx (R1002). -/
def execLdStVx (x : Reg) (s : State) : Result := .next { s.advance with st := s.reg x }

end Sys2Proof.Machine
end

