-- ==== Sys2Proof/Machine/Step.lean ====
section
/-! DEFINITION. One Step (spec/40_step_driver.md R400) and the placing of an instruction where the next Step fetches. -/

namespace Sys2Proof.Machine

/-- STEP (R400): a latched fault blocks it (R401); then the fetch range check (R205); then the word at PC is decoded and
its handler runs, and `State.finish` ends the Step (R406, R407). -/
def step (s : State) : Host.Outcome State Fault Refusal :=
  if s.latched then .next s
  else if s.fetchOut then .next (s.takeFault .fetchRange).markStepped
  else
    match s.fetchWord with
    | .error f => .fault f
    | .ok w =>
      match exec (decodeWord w) s with
      | .next t => .next (t.finish w)
      | .fault f => .fault f
      | .refused r => .refused r

/-- `s` with the opcode-table word w of nbits bits stored at PC, where the next Step fetches it, and with no fault
latched, since a latched fault would block that Step (R401; log 14). -/
def State.withFetchWord (s : State) (nbits w : Nat) : State :=
  s.ack.placeWord (BitVec.ofNat 16 (w % 2 ^ nbits))

end Sys2Proof.Machine
end

