-- ==== Sys2Proof/Machine/Ports.lean ====
section
/-! DEFINITION. The host's operations between Steps and the ports it reads (spec/10_state.md R124, R125;
spec/70_reset_and_hazards.md R1401, R1410 to R1412). ACK is `State.ack`, beside the fault entry. -/

namespace Sys2Proof.Machine

/-- STATUS, the result of a STEP (R125). -/
inductive Status where
  /-- The Step completed. -/
  | ok
  /-- The Step raised a fault, or the latch already held one. -/
  | fault (code : FaultCode) (pc ir : Word)
deriving DecidableEq, Repr

/-- What LOAD returns (R1410, R1411). -/
inductive LoadStatus where
  | ok
  | rejected
deriving DecidableEq, Repr

/-- The number of a fault code (R1301), 3 bits wide (R122). -/
def FaultCode.number : FaultCode → BitVec 3
  | .none => 0
  | .fetchRange => 1
  | .stackOverflow => 2
  | .stackUnderflow => 3
  | .memRange => 4
  | .keyRange => 5

/-- STATUS of the Step that ended in this state: a Step ends with a code latched exactly when it returns FAULT (R125,
R400; log 6). -/
def State.status (s : State) : Status :=
  if s.latched then .fault s.faultCode s.faultPc s.faultIr else .ok

/-- FB[k] of the FB port: linear index k = y × 64 + x is the pixel FB[y][x] (R116, R805). -/
def State.fbPort (s : State) (k : Nat) : Bool := s.pixel (k % 64) (k / 64)

/-- The ST port (R1003). -/
def State.stPort (s : State) : Byte := s.st

/-- RESET (R1401): construction again with the instance's parameters. KEY is an input and is not cleared; the RND port and
the random source go on as they are (log 12). -/
def State.hostReset (s : State) : State :=
  { State.resetWith s.cfg with keys := s.keys, rnd := s.rnd, rndCount := s.rndCount }

/-- PROG_BASE (R8). -/
def progBase : Nat := 0x200

/-- MAX_IMAGE = MEM_SIZE − PROG_BASE (R9). -/
def maxImage : Nat := 3584

/-- LOAD(image) (R1410 to R1412): copies an image of at most MAX_IMAGE bytes to PROG_BASE; a longer one is rejected with
nothing written; after a STEP it is refused. -/
def State.load (s : State) (image : List Byte) : Host.Outcome (LoadStatus × State) Fault Refusal :=
  if s.stepped then .refused .loadAfterStep
  else if maxImage < image.length then .next (.rejected, s)
  else .next (.ok, { s with mem := Memory.writeList s.cfg s.mem progBase image, loaded := true })

/-- The host writes KEY (R118, R1312). -/
def State.setKeys (s : State) (k : BitVec 16) : State := { s with keys := k }

/-- The host puts a byte on RND for the next Step (R124, R409). -/
def State.setRnd (s : State) (b : Byte) : State := { s with rnd := some b }

end Sys2Proof.Machine
end

