-- ==== Sys2Proof/Machine/Session.lean ====
section
/-! DEFINITION. The transactions of the block (spec/10_state.md R124): each is atomic and none overlaps another, so a
session of the host is a list of them (spec/70_reset_and_hazards.md R1413). -/

namespace Sys2Proof.Machine

/-- One operation of the host (R124). -/
inductive HostOp where
  /-- RESET. -/
  | reset
  /-- LOAD(image). -/
  | load (image : List Byte)
  /-- STEP. -/
  | step
  /-- ACK. -/
  | ack
  /-- The host writes KEY[15:0]. -/
  | key (k : BitVec 16)
  /-- The host puts a byte on RND[7:0]. -/
  | rnd (b : Byte)
deriving DecidableEq, Repr

/-- The state after one operation. A rejected LOAD leaves the state as it is (R1411). -/
def transact (o : HostOp) (s : State) : Result :=
  match o with
  | .reset => .next s.hostReset
  | .load image =>
    match s.load image with
    | .next r => .next r.2
    | .fault f => .fault f
    | .refused r => .refused r
  | .step => Sys2Proof.Machine.step s
  | .ack => .next s.ack
  | .key k => .next (s.setKeys k)
  | .rnd b => .next (s.setRnd b)

/-- A session: the operations in order, stopping where one is refused. -/
def session : List HostOp → State → Result
  | [], s => .next s
  | o :: os, s =>
    match transact o s with
    | .next t => session os t
    | .fault f => .fault f
    | .refused r => .refused r

end Sys2Proof.Machine
end

