-- ==== Sys2Proof/Safety.lean ====
section
/-! DEFINITION. The words the statements are made in: the places of the state and what a change leaves alone; which fault
a Step is due (spec/60_exceptions.md R1301); the invariant of every run; waiting for a key and the end of a run. -/

namespace Sys2Proof.Machine

/-! ## Frames -/

/-- A place of the state: every piece of INVENTORY.md's State. -/
inductive Place where
  | reg (r : Reg)
  | pc
  | index
  | sp
  | slot (k : Fin 16)
  | dt
  | st
  | byte (a : Nat)
  | pixel (x : Fin 64) (y : Fin 32)
  | keys
  /-- The RND port and the draw counter. -/
  | rnd
  | ir
  /-- FAULT_CODE, FAULT_PC and FAULT_IR. -/
  | latch
  /-- loaded_since_reset and stepped_since_reset. -/
  | host
  | cfg
deriving DecidableEq, Repr

/-- The place holds the same in two states. A memory byte is compared through `State.memRead`. -/
def Place.same (s t : State) : Place → Prop
  | .reg r => t.reg r = s.reg r
  | .pc => t.pc = s.pc
  | .index => t.index = s.index
  | .sp => t.sp = s.sp
  | .slot k => t.slot k = s.slot k
  | .dt => t.dt = s.dt
  | .st => t.st = s.st
  | .byte a => t.memRead a = s.memRead a
  | .pixel x y => t.pixel x y = s.pixel x y
  | .keys => t.keys = s.keys
  | .rnd => t.rnd = s.rnd ∧ t.rndCount = s.rndCount
  | .ir => t.ir = s.ir
  | .latch => t.faultCode = s.faultCode ∧ t.faultPc = s.faultPc ∧ t.faultIr = s.faultIr
  | .host => t.loaded = s.loaded ∧ t.stepped = s.stepped
  | .cfg => t.cfg = s.cfg

/-- Every place outside `written` holds in `t` what it held in `s`. -/
def KeepsExcept (written : Place → Prop) (s t : State) : Prop := ∀ p, ¬ written p → p.same s t

/-- Every place not in the list holds in `t` what it held in `s`. -/
def Keeps (written : List Place) (s t : State) : Prop := KeepsExcept (· ∈ written) s t

/-- The handler of `i` raises Fault(c) in the Step that starts at `s` (R1302, R1304): it answers the state `s` with
nothing but the latch changed, which records the code, the PC and the word at PC. -/
def RaisesFault (i : Instr) (c : FaultCode) (s : State) : Prop :=
  ∃ t, exec i s = .next t ∧ t.faultCode = c ∧ t.faultPc = s.pc ∧ (∀ w, s.fetchWord = .ok w → t.faultIr = w) ∧
    Keeps [.latch] s t

/-! ## Unassigned secondary values -/

/-- The encodings that R408 gives the NOP handler. -/
def UnassignedKey (w : Word) : Prop :=
  (fieldOp w = 0x0 ∧ fieldN w ∉ [0x0, 0xE]) ∨
  (fieldOp w = 0x8 ∧ fieldN w ∈ [0x8, 0x9, 0xA, 0xB, 0xC, 0xD, 0xF]) ∨
  (fieldOp w = 0xE ∧ fieldN w ∉ [0x1, 0xE]) ∨
  (fieldOp w = 0xF ∧ fieldNN w ∉ [0x07, 0x0A, 0x15, 0x18, 0x1E, 0x29, 0x33, 0x55, 0x65])

/-! ## Which fault a Step is due -/

/-- The fault the handler of an instruction raises at the state where its Step starts: the table of R1301 with the
conditions of R206, R502, R504 and R900. -/
def handlerFault (s : State) : Instr → FaultCode
  | .ret => if s.sp.val = 0 then .stackUnderflow else .none
  | .call _ => if s.sp.val = 16 then .stackOverflow else .none
  | .drw _ _ n => if 0 < n.toNat ∧ 0xFFF < s.index.toNat + n.toNat - 1 then .memRange else .none
  | .ldB _ => if 0xFFF < s.index.toNat + 2 then .memRange else .none
  | .ldMemVx x => if 0xFFF < s.index.toNat + x.toNat then .memRange else .none
  | .ldVxMem x => if 0xFFF < s.index.toNat + x.toNat then .memRange else .none
  | .skp x => if 15 < (s.reg x).toNat then .keyRange else .none
  | .sknp x => if 15 < (s.reg x).toNat then .keyRange else .none
  | .cls | .nop0 _ | .jp _ | .seImm _ _ | .sneImm _ _ | .seReg _ _ | .ldImm _ _ | .addImm _ _ | .ldReg _ _ | .orReg _ _
  | .andReg _ _ | .xorReg _ _ | .addReg _ _ | .subReg _ _ | .shr _ _ | .subn _ _ | .shl _ _ | .nop8 _ | .sneReg _ _
  | .ldI _ | .jpV0 _ | .rnd _ _ | .nopE _ | .ldVxDt _ | .ldVxK _ | .ldDtVx _ | .ldStVx _ | .addI _ | .ldF _
  | .nopF _ => .none

/-- The fault the next Step of an unlatched machine raises: FETCH_RANGE first (R1303), then the handler's condition. -/
def State.dueFault (s : State) : FaultCode :=
  if 0xFFE < s.pc.toNat then .fetchRange
  else
    match s.fetchWord with
    | .ok w => handlerFault s (decodeWord w)
    | .error _ => .none

/-! ## The invariant -/

/-- What holds in every state a session reaches: memory in its canonical form; PC at most 0x10FE, the greatest target of
JP V0 (R509), and stacked addresses at most 0x1000 (R502); the latch record zero while no fault is latched (R1306), and
while one is latched the record of the fault that this very state is due, after at least one STEP (R1302, R1304,
R1412). -/
structure Inv (s : State) : Prop where
  memory : Memory.wf s.cfg s.mem
  pcBound : s.pc.toNat ≤ 0x10FE
  stackBound : ∀ k, (s.slot k).toNat ≤ 0x1000
  clearRecord : s.faultCode = .none → s.faultPc = 0 ∧ s.faultIr = 0
  heldRecord : s.faultCode ≠ .none →
    s.faultCode = s.dueFault ∧ s.faultPc = s.pc ∧ s.faultIr = s.faultWord s.faultCode ∧ s.stepped = true

/-! ## Runs -/

/-- Awaiting a key (R121): the word at PC decodes to FX0A and every key is released. -/
def State.awaitingKey (s : State) : Prop :=
  ∃ w x, s.fetchWord = .ok w ∧ decodeWord w = .ldVxK x ∧ ∀ k < 16, s.keyDown k = false

/-- A good end of a run (R1415): no fault latched (R1305: a faulted state is never final) and the word at PC is a jump to
itself. -/
def State.final (s : State) : Prop :=
  s.latched = false ∧ ∃ w nnn, s.fetchWord = .ok w ∧ decodeWord w = .jp nnn ∧ zext16 nnn = s.pc

/-- R802 from the screen's side, in its own arithmetic: the sprite pixel at (ax, ay) lands on the screen pixel (px, py).
Under CLIP it lands where it is, and only inside the 64 × 32 grid; under WRAP it lands modulo 64 and 32. -/
def LandsOn (edge : DrawEdge) (ax ay px py : Nat) : Prop :=
  match edge with
  | .clip => ax < 64 ∧ ay < 32 ∧ px = ax ∧ py = ay
  | .wrap => px = ax % 64 ∧ py = ay % 32

/-- The sprite of a DRW covers the screen pixel (px, py): some set bit of some row, bit 7 leftmost, lands there. `rows` are
the sprite's bytes and (x0, y0) its base coordinates. -/
def Covers (edge : DrawEdge) (x0 y0 : Nat) (rows : List Byte) (px py : Nat) : Prop :=
  ∃ r c, r < rows.length ∧ c < 8 ∧ (rows.getD r 0).getLsbD (7 - c) = true ∧ LandsOn edge (x0 + c) (y0 + r) px py

end Sys2Proof.Machine
end

