-- ==== Sys2Proof/Certificates/Slice0/Obligations.lean ====
section
/-! DEFINITION. The statements about CORE, from the numbered rules of spec/. A statement holds for every parameter setting
of spec/00_scope.md R10: the parameters are the field `cfg`. A meaning is stated at the state where its Step starts (log 7),
so `s.pc + 2` is the pseudocode's PC (R403). -/

open Sys2Proof Sys2Proof.Machine

/-! ## Encoding -/

/-- Words written out from the encodings of spec/30_encoding.md, one or more per family, decode to the instruction they
stand for (6A02 and 7A05 are DOC0's own). -/
def Obligations.DecodesWordsOfEveryFamily : Prop :=
  decodeWord 0x00E0 = .cls ∧ decodeWord 0x00EE = .ret ∧ decodeWord 0x1234 = .jp 0x234 ∧
  decodeWord 0x2210 = .call 0x210 ∧ decodeWord 0x6A02 = .ldImm 0xA 0x02 ∧ decodeWord 0x7A05 = .addImm 0xA 0x05 ∧
  decodeWord 0x8FE4 = .addReg 0xF 0xE ∧ decodeWord 0x800F = .nop8 0xF ∧ decodeWord 0xF21E = .addI 0x2 ∧
  decodeWord 0xC30F = .rnd 0x3 0x0F ∧ decodeWord 0xD125 = .drw 0x1 0x2 0x5 ∧ decodeWord 0xE49E = .skp 0x4 ∧
  decodeWord 0xE4A1 = .sknp 0x4 ∧ decodeWord 0xF30A = .ldVxK 0x3 ∧ decodeWord 0xFA15 = .ldDtVx 0xA ∧
  decodeWord 0xFA33 = .ldB 0xA ∧ decodeWord 0xF265 = .ldVxMem 0x2 ∧ decodeWord 0xFFFF = .nopF 0xFF

/-- Decoding the two stored bytes of any well-formed instruction, whatever bytes follow, gives the instruction back and
leaves the bytes that follow. -/
def Obligations.DecodeEncodeRoundTrip : Prop :=
  ∀ (i : Instr) (rest : List Byte), i.wellFormed = true → decode (encodeBytes i ++ rest) = .ok (i, rest)

/-- Every word decodes to a well-formed instruction whose encoding agrees with the word on every bit the instruction's
row reads: no operand bit is dropped. -/
def Obligations.EncodeKeepsEveryReadBit : Prop :=
  ∀ w : Word, (decodeWord w).wellFormed = true ∧
    encode (decodeWord w) &&& (decodeWord w).readBits = w &&& (decodeWord w).readBits

/-- Every one of the 65536 words selects exactly one row of the opcode table, and it is the row of the instruction the
decoder gives (spec/30_encoding.md section 4; R305 is marked there as derived). -/
def Obligations.EveryWordSelectsItsOneRow : Prop :=
  ∀ (w : Word) (k : Nat) (r : OpcodeRow), opcodeRows[k]? = some r → (r.selects w = true ↔ k = (decodeWord w).row)

/-- R304: an unassigned secondary value of families 0, 8, E and F selects the NOP handler. -/
def Obligations.UnassignedKeysAreNops : Prop :=
  ∀ w : Word,
    (fieldOp w = 0x0 → fieldN w ∉ [0x0, 0xE] → decodeWord w = .nop0 (fieldN w)) ∧
    (fieldOp w = 0x8 → fieldN w ∉ [0x0, 0x1, 0x2, 0x3, 0x4, 0x5, 0x6, 0x7, 0xE] → decodeWord w = .nop8 (fieldN w)) ∧
    (fieldOp w = 0xE → fieldN w ∉ [0x1, 0xE] → decodeWord w = .nopE (fieldN w)) ∧
    (fieldOp w = 0xF → fieldNN w ∉ [0x07, 0x0A, 0x15, 0x18, 0x1E, 0x29, 0x33, 0x55, 0x65] →
      decodeWord w = .nopF (fieldNN w))

/-- R307, R309: families 0 and E are keyed on the bottom nibble alone, whatever the middle bits are. -/
def Obligations.KeyedOnBottomNibbleAlone : Prop :=
  (∀ a b n : Nibble, decodeWord (word4 0x0 a b n) = if n = 0x0 then .cls else if n = 0xE then .ret else .nop0 n) ∧
  (∀ x b n : Nibble, decodeWord (word4 0xE x b n) = if n = 0xE then .skp x else if n = 0x1 then .sknp x else .nopE n)

/-! ## The Step -/

/-- A Step of an unlatched machine whose two bytes at PC read as hi and lo is exec of the decoded word hi ++ lo at that
state, and around it: a completed handler gets IR := the word, both timers ticked and this Step's random byte used up; a
faulted one keeps its state; either way stepped_since_reset is set. The split is the model's (logs 3, 7 and 8). -/
def Obligations.StepRunsDecodedInstruction : Prop :=
  ∀ (s t : State) (hi lo : Byte), s.faultCode = .none → s.memRead s.pc.toNat = .ok hi →
    s.memRead (s.pc.toNat + 1) = .ok lo → exec (decodeWord (wordOfBytes hi lo)) s = .next t →
    step s = .next (if t.faultCode = .none then
        { t with ir := wordOfBytes hi lo, dt := tick t.dt, st := tick t.st, rnd := none, rndCount := t.rndCount + 1,
                 stepped := true }
      else { t with stepped := true })

/-- The host's placing of a word: afterwards no fault is latched, the word at PC is that word, and nothing else has
changed but the two bytes at PC (log 14). -/
def Obligations.PlacedWordIsFetchedNext : Prop :=
  ∀ (s : State) (w : Word), s.pc.toNat ≤ 0xFFE →
    (s.withFetchWord 16 w.toNat).fetchWord = .ok w ∧ (s.withFetchWord 16 w.toNat).faultCode = .none ∧
    Keeps [.latch, .byte s.pc.toNat, .byte (s.pc.toNat + 1)] s (s.withFetchWord 16 w.toNat)

/-- R401, R1305: while a fault is latched STEP changes no state and returns the record, the state is no good end, and only
ACK and RESET clear the latch. -/
def Obligations.LatchedFaultBlocksStep : Prop :=
  ∀ s : State, s.faultCode ≠ .none →
    (step s = .next s ∧ s.status = .fault s.faultCode s.faultPc s.faultIr ∧ ¬ s.final) ∧
    ∀ (o : HostOp) (t : State), transact o s = .next t → o ≠ .ack → o ≠ .reset →
      t.faultCode = s.faultCode ∧ t.faultPc = s.faultPc ∧ t.faultIr = s.faultIr

/-- R205: a Step with PC > 0xFFE raises FETCH_RANGE: only the latch and the host's bookkeeping change. -/
def Obligations.FetchBeyondMemoryFaults : Prop :=
  ∀ s : State, s.faultCode = .none → 0xFFE < s.pc.toNat →
    ∃ t, step s = .next t ∧ t.faultCode = .fetchRange ∧ t.faultPc = s.pc ∧ t.faultIr = 0 ∧ Keeps [.latch, .host] s t

/-- R402: IR is memory[PC] ++ memory[PC+1], memory[PC] the high byte, after every completed Step, even one that stores to
its own word; a PC above 0xFFE raises FETCH_RANGE with FAULT_IR = 0x0000. -/
def Obligations.FetchIsBigEndianIntoIr : Prop :=
  ∀ s t : State, s.faultCode = .none → step s = .next t →
    (s.pc.toNat ≤ 0xFFE → t.faultCode = .none →
      ∃ hi lo, s.memRead s.pc.toNat = .ok hi ∧ s.memRead (s.pc.toNat + 1) = .ok lo ∧ t.ir = hi ++ lo) ∧
    (0xFFE < s.pc.toNat → t.faultCode = .fetchRange ∧ t.faultIr = 0)

/-- Every Step that completes decrements each timer once while it is above 0, whatever instruction ran, but for the timer
an FX15 or FX18 has just written (R400; R406 is marked there as derived from the sentence order of DOC0 §4.3). -/
def Obligations.TimersTickEachCompletedStep : Prop :=
  ∀ (s t : State) (w : Word), s.faultCode = .none → s.fetchWord = .ok w → step s = .next t → t.faultCode = .none →
    ((∀ x, decodeWord w ≠ .ldDtVx x) → t.dt.toNat = s.dt.toNat - 1) ∧
    ((∀ x, decodeWord w ≠ .ldStVx x) → t.st.toNat = s.st.toNat - 1)

/-- R1304 (with R407): a Step that raises a fault leaves every place as it was at its start, timers and IR included, but for
the latch, which records the PC and the word; STATUS returns the record. -/
def Obligations.FaultingStepIsPrecise : Prop :=
  ∀ s t : State, s.faultCode = .none → step s = .next t → t.faultCode ≠ .none →
    t.faultPc = s.pc ∧ (t.faultCode = .fetchRange → t.faultIr = 0) ∧
    (t.faultCode ≠ .fetchRange → ∃ w, s.fetchWord = .ok w ∧ t.faultIr = w) ∧
    Keeps [.latch, .host] s t ∧ t.loaded = s.loaded ∧ t.status = .fault t.faultCode t.faultPc t.faultIr

/-- R1301: the Step of an unlatched machine latches exactly the code of the table's condition that holds, NONE when none
holds ("No other condition faults"), and the codes have the table's numbers. -/
def Obligations.FaultsExactlyAsTabulated : Prop :=
  (∀ s : State, s.faultCode = .none → ∃ t, step s = .next t ∧ t.faultCode = s.dueFault) ∧
  [FaultCode.none, .fetchRange, .stackOverflow, .stackUnderflow, .memRange, .keyRange].map FaultCode.number =
    [0, 1, 2, 3, 4, 5]

/-- ACK clears the three latch fields and nothing else, and does nothing with no fault latched (spec/60_exceptions.md,
R1306's first sentences). -/
def Obligations.AckClearsTheLatchOnly : Prop :=
  ∀ s : State,
    (s.faultCode ≠ .none → s.ack.faultCode = .none ∧ s.ack.faultPc = 0 ∧ s.ack.faultIr = 0 ∧ Keeps [.latch] s s.ack) ∧
    (s.faultCode = .none → s.ack = s)

/-- "Every fault is raised again by the next STEP after ACK: the same code, PC and word", whatever the host has put on KEY
and RND meanwhile (spec/60_exceptions.md R1306, marked there as derived). -/
def Obligations.AckedFaultIsRaisedAgain : Prop :=
  ∀ (s t : State) (k : BitVec 16) (b : Byte), s.faultCode = .none → step s = .next t → t.faultCode ≠ .none →
    ∃ u, step ((t.ack.setKeys k).setRnd b) = .next u ∧ u.faultCode = t.faultCode ∧ u.faultPc = t.faultPc ∧
      u.faultIr = t.faultIr ∧ Keeps [.keys, .rnd] t u

/-- R125: STATUS after a STEP is FAULT with the record when a fault was latched or the Step raised one, and OK otherwise; a
Step that finds no key for FX0A returns OK. -/
def Obligations.StatusReportsTheStep : Prop :=
  ∀ s t : State, step s = .next t →
    (s.faultCode ≠ .none → t.status = .fault s.faultCode s.faultPc s.faultIr) ∧
    (s.faultCode = .none → s.dueFault ≠ .none → t.status = .fault s.dueFault s.pc (s.faultWord s.dueFault)) ∧
    (s.faultCode = .none → s.dueFault = .none → t.status = .ok) ∧
    (s.faultCode = .none → s.awaitingKey → t.status = .ok)

/-- No Step stops: in every state, one no run reaches included, STEP answers a next state (R405: a handler completes or
raises a fault; R1304: a fault is a state with the latch set). -/
def Obligations.EveryStepAnswersAState : Prop := ∀ s : State, ∃ t, step s = .next t

/-! ## Invariants -/

/-- The invariant holds after reset, for every setting of the parameters. -/
def Obligations.InvariantAtReset : Prop := ∀ c : Config, Inv (State.resetWith c)

/-- Every Step keeps the invariant. -/
def Obligations.InvariantKeptByStep : Prop := ∀ s t : State, Inv s → step s = .next t → Inv t

/-- Every session of the host keeps the invariant: RESET, LOAD, STEP, ACK, KEY and RND in any order (R124). -/
def Obligations.InvariantKeptBySessions : Prop :=
  ∀ (os : List HostOp) (s t : State), Inv s → session os s = .next t → Inv t

/-- The canonical form is canonical: two memories in it that read the same everywhere are the same data. -/
def Obligations.CanonicalMemoriesAreEqual : Prop :=
  ∀ (c : Config) (m n : Memory), Memory.wf c m → Memory.wf c n → (∀ a, Memory.read c m a = Memory.read c n a) → m = n

/-- No session changes the parameters (spec/10_state.md R123: "fixed per instance and are not state"; log 1). -/
def Obligations.ParametersNeverChange : Prop :=
  ∀ (os : List HostOp) (s t : State), session os s = .next t → t.cfg = s.cfg

/-- KEY is read by EX9E, EXA1 and FX0A only, and written by no instruction (spec/10_state.md R118): any other instruction
answers the same state whatever the keypad is. -/
def Obligations.KeypadReadByThreeInstructions : Prop :=
  (∀ (i : Instr) (s t : State), exec i s = .next t → t.keys = s.keys) ∧
  ∀ (i : Instr) (s t : State) (k : BitVec 16), (∀ x, i ≠ .skp x ∧ i ≠ .sknp x ∧ i ≠ .ldVxK x) →
    exec i s = .next t → exec i (s.setKeys k) = .next (t.setKeys k)

/-- RND is read by CXNN only (spec/40_step_driver.md R409: "Only CXNN reads it"): any other instruction answers the same
state whatever byte is on the port. -/
def Obligations.RandomByteReadByOneInstruction : Prop :=
  ∀ (i : Instr) (s t : State) (b : Byte), (∀ x nn, i ≠ .rnd x nn) → exec i s = .next t →
    exec i (s.setRnd b) = .next (t.setRnd b)

/-- Which instructions write which state, over all instructions (R104, R110, R113, R116, R204): VF only by the list of R104
or as a named destination, FB by 00E0 and DXYN, memory by FX33 and FX55, the stack by 2NNN and 00EE, I by ANNN, FX1E and
FX29, DT by FX15 and ST by FX18. -/
def Obligations.WhichInstructionsWriteWhat : Prop :=
  ∀ (i : Instr) (s t : State), exec i s = .next t →
    (t.reg flagReg ≠ s.reg flagReg →
      (∃ x y, i = .addReg x y ∨ i = .subReg x y ∨ i = .subn x y ∨ i = .shr x y ∨ i = .shl x y ∨ ∃ n, i = .drw x y n) ∨
      (s.cfg.logicVfReset = true ∧ ∃ x y, i = .orReg x y ∨ i = .andReg x y ∨ i = .xorReg x y) ∨
      (∃ y, i = .ldReg flagReg y ∨ i = .orReg flagReg y ∨ i = .andReg flagReg y ∨ i = .xorReg flagReg y) ∨
      (∃ nn, i = .ldImm flagReg nn ∨ i = .addImm flagReg nn ∨ i = .rnd flagReg nn) ∨
      i = .ldVxDt flagReg ∨ i = .ldVxK flagReg ∨ i = .ldVxMem flagReg) ∧
    (t.fb ≠ s.fb → i = .cls ∨ ∃ x y n, i = .drw x y n) ∧
    (t.mem ≠ s.mem → ∃ x, i = .ldB x ∨ i = .ldMemVx x) ∧
    (t.sp ≠ s.sp → i = .ret ∨ ∃ nnn, i = .call nnn) ∧
    (t.stack ≠ s.stack → ∃ nnn, i = .call nnn) ∧
    (t.index ≠ s.index → (∃ nnn, i = .ldI nnn) ∨ ∃ x, i = .addI x ∨ i = .ldF x) ∧
    (t.dt ≠ s.dt → ∃ x, i = .ldDtVx x) ∧
    (t.st ≠ s.st → ∃ x, i = .ldStVx x)

/-! ## Reset, load and the end of a run -/

/-- R127: what every piece of state holds after reset, for every setting of the parameters; D7 is the spec's ground for the
zeros. (That no byte is on RND is the model's, log 4.) -/
def Obligations.ResetValues : Prop :=
  ∀ c : Config, let s := State.resetWith c
    (∀ r, s.reg r = 0) ∧ s.index = 0 ∧ s.pc = 0x200 ∧ s.sp.val = 0 ∧ (∀ k, s.slot k = 0) ∧ s.dt = 0 ∧ s.st = 0 ∧
    (∀ a, a ≤ 0xFFF → s.memRead a = .ok
      (if c.fontBase.val ≤ a ∧ a ≤ c.fontBase.val + 79 then c.font.toList.getD (a - c.fontBase.val) 0 else 0)) ∧
    (∀ x y, s.pixel x y = false) ∧ (∀ k, s.keyDown k = false) ∧ s.ir = 0 ∧
    s.faultCode = .none ∧ s.faultPc = 0 ∧ s.faultIr = 0

/-- R1401: RESET at any time constructs the machine again with its parameters and leaves KEY as it is. (That the random
source goes on is the model's, log 12.) -/
def Obligations.HostResetReconstructs : Prop :=
  ∀ s : State, ∃ t, transact .reset s = .next t ∧ t.cfg = s.cfg ∧ t.keys = s.keys ∧
    (∀ a, a ≤ 0xFFF → t.memRead a = .ok
      (if s.cfg.fontBase.val ≤ a ∧ a ≤ s.cfg.fontBase.val + 79 then s.cfg.font.toList.getD (a - s.cfg.fontBase.val) 0
        else 0)) ∧
    (∀ r, t.reg r = 0) ∧ t.index = 0 ∧ t.sp.val = 0 ∧
    (∀ k, t.slot k = 0) ∧ t.dt = 0 ∧ t.st = 0 ∧ t.ir = 0 ∧ (∀ x y, t.pixel x y = false) ∧ t.pc = 0x200 ∧
    t.faultCode = .none ∧ t.faultPc = 0 ∧ t.faultIr = 0 ∧ t.loaded = false ∧ t.stepped = false

/-- Before the first STEP an image of at most 3584 bytes is copied to 0x200 and on; every other byte and every other place
but the host's bookkeeping keeps its value (spec/70_reset_and_hazards.md R1410). That loaded_since_reset is set for the empty
image too, of which R1410 also says that it changes nothing, is the model's reading (log 17, DEDUCED). -/
def Obligations.LoadCopiesTheImage : Prop :=
  ∀ (s : State) (image : List Byte), s.stepped = false → image.length ≤ 3584 →
    ∃ t, s.load image = .next (.ok, t) ∧ (∀ k, k < image.length → t.memRead (0x200 + k) = .ok (image.getD k 0)) ∧
      t.loaded = true ∧ t.stepped = false ∧
      KeepsExcept (fun p => p = .host ∨ ∃ k, k < image.length ∧ p = .byte (0x200 + k)) s t

/-- R1411: an image of more than 3584 bytes is rejected with nothing written, the latch included. -/
def Obligations.LongImageIsRejected : Prop :=
  ∀ (s : State) (image : List Byte), s.stepped = false → 3584 < image.length → s.load image = .next (.rejected, s)

/-- R1412: LOAD is refused after a STEP; RESET opens the window, a STEP closes it and a LOAD does not, so a later LOAD in it
copies its image over the earlier one. -/
def Obligations.LoadOnlyBeforeTheFirstStep : Prop :=
  (∀ (s : State) (image : List Byte), s.stepped = true → s.load image = .refused .loadAfterStep) ∧
  (∀ s t : State, s.faultCode = .none → step s = .next t → t.stepped = true) ∧
  (∀ s t : State, transact .reset s = .next t → t.stepped = false) ∧
  (∀ (s t : State) (image later : List Byte) (r : LoadStatus), s.stepped = false → s.load image = .next (r, t) →
    later.length ≤ 3584 →
    t.stepped = false ∧ ∃ u, t.load later = .next (.ok, u) ∧
      ∀ k, k < later.length → u.memRead (0x200 + k) = .ok (later.getD k 0))

/-- Zero bytes at PC run as CLS: whatever FB was, the Step completes with every pixel off and PC two further, and keeps
everything else but the timers, IR, the random draw and the host's bookkeeping. So execution walks up unwritten memory, with
no image loaded or past the end of one (spec/70_reset_and_hazards.md R1414, marked there as derived). -/
def Obligations.ZeroBytesRunAsCls : Prop :=
  ∀ s : State, s.faultCode = .none → s.pc.toNat ≤ 0xFFE → s.memRead s.pc.toNat = .ok 0 →
    s.memRead (s.pc.toNat + 1) = .ok 0 →
    ∃ t, step s = .next t ∧ t.pc = s.pc + 2 ∧ (∀ x y, t.pixel x y = false) ∧ t.faultCode = .none ∧
      KeepsExcept (fun p => p ∈ [.pc, .dt, .st, .ir, .rnd, .host] ∨ ∃ x y, p = .pixel x y) s t

/-- A self-jump is a loop that runs for ever: at a good end (R1415) a Step completes, the state is again a good end at the
same PC, and nothing changes but the timers, IR, the random draw and the host's bookkeeping. -/
def Obligations.SelfJumpLoopsForEver : Prop :=
  ∀ s : State, s.final → ∃ t, step s = .next t ∧ t.final ∧ t.pc = s.pc ∧ t.dt.toNat = s.dt.toNat - 1 ∧
    t.st.toNat = s.st.toNat - 1 ∧ Keeps [.dt, .st, .ir, .rnd, .host] s t

/-! ## NOP and flow control -/

/-- R408: the handler of every unassigned secondary value does nothing but the fetch advance: for every word with such a
key, and for the four NOP constructors with any key. -/
def Obligations.NopsOnlyAdvance : Prop :=
  (∀ (s : State) (w : Word), UnassignedKey w → ∃ t, exec (decodeWord w) s = .next t ∧ t.pc = s.pc + 2 ∧ Keeps [.pc] s t) ∧
  ∀ (s : State) (sub : Nibble) (sub8 : Byte) (i : Instr),
    i = .nop0 sub ∨ i = .nop8 sub ∨ i = .nopE sub ∨ i = .nopF sub8 →
    ∃ t, exec i s = .next t ∧ t.pc = s.pc + 2 ∧ Keeps [.pc] s t

/-- R501: CLS turns every pixel off, whatever FB was; VF and everything else but PC stays. -/
def Obligations.ClsClearsTheDisplay : Prop :=
  (∀ a b : Nibble, decodeWord (word4 0x0 a b 0x0) = .cls) ∧
  ∀ s : State, ∃ t, exec .cls s = .next t ∧ (∀ x y, t.pixel x y = false) ∧ t.pc = s.pc + 2 ∧
    KeepsExcept (fun p => p = .pc ∨ ∃ x y, p = .pixel x y) s t

/-- R502: RET takes the top entry into PC and lowers SP, no slot changing; with SP = 0 it raises STACK_UNDERFLOW. -/
def Obligations.RetPopsOrUnderflows : Prop :=
  (∀ a b : Nibble, decodeWord (word4 0x0 a b 0xE) = .ret) ∧
  (∀ (s : State) (k : Fin 16), s.sp.val = k.val + 1 →
    ∃ t, exec .ret s = .next t ∧ t.sp.val = k.val ∧ t.pc = s.slot k ∧ Keeps [.pc, .sp] s t) ∧
  ∀ s : State, s.sp.val = 0 → RaisesFault .ret .stackUnderflow s

/-- R503: JP sets PC to exactly the 12-bit operand, whatever PC was. -/
def Obligations.JpSetsPc : Prop :=
  ∀ (s : State) (nnn : Addr12), decodeWord (wordNNN 0x1 nnn) = .jp nnn ∧
    ∃ t, exec (.jp nnn) s = .next t ∧ t.pc.toNat = nnn.toNat ∧ Keeps [.pc] s t

/-- R504: CALL pushes the address after its own word and jumps; with SP = 16 it raises STACK_OVERFLOW. -/
def Obligations.CallPushesOrOverflows : Prop :=
  (∀ nnn : Addr12, decodeWord (wordNNN 0x2 nnn) = .call nnn) ∧
  (∀ (s : State) (nnn : Addr12) (k : Fin 16), s.sp.val = k.val →
    ∃ t, exec (.call nnn) s = .next t ∧ t.slot k = s.pc + 2 ∧ t.sp.val = k.val + 1 ∧ t.pc.toNat = nnn.toNat ∧
      Keeps [.pc, .sp, .slot k] s t) ∧
  ∀ (s : State) (nnn : Addr12), s.sp.val = 16 → RaisesFault (.call nnn) .stackOverflow s

/-- R505 to R508: the compare skips add 2 on top of the fetch advance when their condition holds, and change nothing but
PC. -/
def Obligations.SkipsCompareAndAdvance : Prop :=
  ∀ (s : State) (x y n : Nibble) (nn : Byte),
    (decodeWord (wordXNN 0x3 x nn) = .seImm x nn ∧ ∃ t, exec (.seImm x nn) s = .next t ∧
      t.pc = (if s.reg x = nn then s.pc + 2 + 2 else s.pc + 2) ∧ Keeps [.pc] s t) ∧
    (decodeWord (wordXNN 0x4 x nn) = .sneImm x nn ∧ ∃ t, exec (.sneImm x nn) s = .next t ∧
      t.pc = (if s.reg x ≠ nn then s.pc + 2 + 2 else s.pc + 2) ∧ Keeps [.pc] s t) ∧
    (decodeWord (word4 0x5 x y n) = .seReg x y ∧ ∃ t, exec (.seReg x y) s = .next t ∧
      t.pc = (if s.reg x = s.reg y then s.pc + 2 + 2 else s.pc + 2) ∧ Keeps [.pc] s t) ∧
    (decodeWord (word4 0x9 x y n) = .sneReg x y ∧ ∃ t, exec (.sneReg x y) s = .next t ∧
      t.pc = (if s.reg x ≠ s.reg y then s.pc + 2 + 2 else s.pc + 2) ∧ Keeps [.pc] s t)

/-- R509: JP V0 sets PC to NNN + V0, which never wraps. -/
def Obligations.JpV0AddsTheOffset : Prop :=
  ∀ (s : State) (nnn : Addr12), decodeWord (wordNNN 0xB nnn) = .jpV0 nnn ∧
    ∃ t, exec (.jpV0 nnn) s = .next t ∧ t.pc.toNat = nnn.toNat + (s.reg 0).toNat ∧ Keeps [.pc] s t

/-! ## Register operations -/

/-- R601, R602, R603: load immediate, add immediate modulo 256 with no flag, and copy: V[X] gets the value and every other
register, VF among them, stays. -/
def Obligations.MovesAndAddImmediate : Prop :=
  ∀ (s : State) (x y : Reg) (nn : Byte),
    (decodeWord (wordXNN 0x6 x nn) = .ldImm x nn ∧ ∃ t, exec (.ldImm x nn) s = .next t ∧ t.reg x = nn ∧
      t.pc = s.pc + 2 ∧ Keeps [.pc, .reg x] s t) ∧
    (decodeWord (wordXNN 0x7 x nn) = .addImm x nn ∧ ∃ t, exec (.addImm x nn) s = .next t ∧
      (t.reg x).toNat = ((s.reg x).toNat + nn.toNat) % 256 ∧ t.pc = s.pc + 2 ∧ Keeps [.pc, .reg x] s t) ∧
    (decodeWord (word4 0x8 x y 0x0) = .ldReg x y ∧ ∃ t, exec (.ldReg x y) s = .next t ∧ t.reg x = s.reg y ∧
      t.pc = s.pc + 2 ∧ Keeps [.pc, .reg x] s t)

/-- R604 to R607: OR, AND and XOR write V[X]; under LOGIC_VF_RESET they then write VF ← 0, also when X = F; without it no
other register changes. -/
def Obligations.LogicWritesResultThenFlagPolicy : Prop :=
  ∀ (s : State) (x y : Reg),
    (decodeWord (word4 0x8 x y 0x1) = .orReg x y ∧ decodeWord (word4 0x8 x y 0x2) = .andReg x y ∧
      decodeWord (word4 0x8 x y 0x3) = .xorReg x y) ∧
    ∀ (i : Instr) (res : Byte),
      (i = .orReg x y ∧ res = s.reg x ||| s.reg y) ∨ (i = .andReg x y ∧ res = s.reg x &&& s.reg y) ∨
        (i = .xorReg x y ∧ res = s.reg x ^^^ s.reg y) →
      ∃ t, exec i s = .next t ∧ t.pc = s.pc + 2 ∧
        (∀ r, t.reg r = if s.cfg.logicVfReset = true ∧ r = flagReg then 0 else if r = x then res else s.reg r) ∧
        KeepsExcept (fun p => p = .pc ∨ ∃ r, p = .reg r) s t

/-- R608 (order of R600): VF is 1 exactly when the exact sum of the old operands exceeds 255, for every X and Y, F among
them; V[X] is the sum modulo 256 unless X = F; no other register changes. -/
def Obligations.AddSetsCarry : Prop :=
  ∀ (s : State) (x y : Reg), decodeWord (word4 0x8 x y 0x4) = .addReg x y ∧
    ∃ t, exec (.addReg x y) s = .next t ∧ t.pc = s.pc + 2 ∧
      t.reg flagReg = (if (s.reg x).toNat + (s.reg y).toNat > 255 then 1 else 0) ∧
      (x ≠ flagReg → (t.reg x).toNat = ((s.reg x).toNat + (s.reg y).toNat) % 256) ∧
      Keeps [.pc, .reg x, .reg flagReg] s t

/-- R609, R611 (order of R600): VF is 1 exactly when the minuend is at least the subtrahend (equal operands among them),
for every X and Y; V[X] is the difference modulo 256 unless X = F. -/
def Obligations.SubtractsSetNoBorrow : Prop :=
  ∀ (s : State) (x y : Reg),
    (decodeWord (word4 0x8 x y 0x5) = .subReg x y ∧ ∃ t, exec (.subReg x y) s = .next t ∧ t.pc = s.pc + 2 ∧
      t.reg flagReg = (if (s.reg x).toNat ≥ (s.reg y).toNat then 1 else 0) ∧
      (x ≠ flagReg → (t.reg x).toNat = (256 + (s.reg x).toNat - (s.reg y).toNat) % 256) ∧
      Keeps [.pc, .reg x, .reg flagReg] s t) ∧
    (decodeWord (word4 0x8 x y 0x7) = .subn x y ∧ ∃ t, exec (.subn x y) s = .next t ∧ t.pc = s.pc + 2 ∧
      t.reg flagReg = (if (s.reg y).toNat ≥ (s.reg x).toNat then 1 else 0) ∧
      (x ≠ flagReg → (t.reg x).toNat = (256 + (s.reg y).toNat - (s.reg x).toNat) % 256) ∧
      Keeps [.pc, .reg x, .reg flagReg] s t)

/-- R610, R612, R613: the source is V[X], or V[Y] when SHIFT_SRC = VY; V[X] is half the source or twice it modulo 256 unless
X = F; VF is the bit shifted out. -/
def Obligations.ShiftsSetTheLostBit : Prop :=
  ∀ (s : State) (x y : Reg) (src : Byte), src = (if s.cfg.shiftSrc = .vy then s.reg y else s.reg x) →
    (decodeWord (word4 0x8 x y 0x6) = .shr x y ∧ ∃ t, exec (.shr x y) s = .next t ∧ t.pc = s.pc + 2 ∧
      (t.reg flagReg).toNat = src.toNat % 2 ∧ (x ≠ flagReg → (t.reg x).toNat = src.toNat / 2) ∧
      Keeps [.pc, .reg x, .reg flagReg] s t) ∧
    (decodeWord (word4 0x8 x y 0xE) = .shl x y ∧ ∃ t, exec (.shl x y) s = .next t ∧ t.pc = s.pc + 2 ∧
      (t.reg flagReg).toNat = src.toNat / 128 ∧ (x ≠ flagReg → (t.reg x).toNat = src.toNat * 2 % 256) ∧
      Keeps [.pc, .reg x, .reg flagReg] s t)

/-! ## Index register and random byte -/

/-- R700, R701, R702: LD I, ADD I modulo 65536 and LD F write I and nothing else but PC; no flag. -/
def Obligations.IndexWrites : Prop :=
  ∀ (s : State) (x : Reg) (nnn : Addr12),
    (decodeWord (wordNNN 0xA nnn) = .ldI nnn ∧ ∃ t, exec (.ldI nnn) s = .next t ∧ t.index.toNat = nnn.toNat ∧
      t.pc = s.pc + 2 ∧ Keeps [.pc, .index] s t) ∧
    (decodeWord (wordXNN 0xF x 0x1E) = .addI x ∧ ∃ t, exec (.addI x) s = .next t ∧
      t.index.toNat = (s.index.toNat + (s.reg x).toNat) % 65536 ∧ t.pc = s.pc + 2 ∧ Keeps [.pc, .index] s t) ∧
    (decodeWord (wordXNN 0xF x 0x29) = .ldF x ∧ ∃ t, exec (.ldF x) s = .next t ∧
      t.index.toNat = s.cfg.fontBase.val + 5 * ((s.reg x).toNat % 16) ∧ t.pc = s.pc + 2 ∧ Keeps [.pc, .index] s t)

/-- R703: V[X] is a byte RND under the mask, so 0 for NN = 0; RND is the byte the host has put on the port when it has put
one there. -/
def Obligations.RndMasksTheRandomByte : Prop :=
  ∀ (s : State) (x : Reg) (nn : Byte), decodeWord (wordXNN 0xC x nn) = .rnd x nn ∧
    ∃ (t : State) (rnd : Byte), exec (.rnd x nn) s = .next t ∧ (∀ b, s.rnd = some b → rnd = b) ∧
      t.reg x = rnd &&& nn ∧ t.pc = s.pc + 2 ∧ Keeps [.pc, .reg x] s t

/-! ## Display -/

/-- R800 to R804, R802 written out in `LandsOn`: a DRW whose block is inside memory, or empty, flips exactly the screen pixels its sprite covers, sets VF
to 1 exactly when it covers a pixel that was on, and changes nothing else but PC. The rows are the N bytes at I; the
coordinates are V[X] mod 64 and V[Y] mod 32 as they were before; N = 0 covers nothing. A block beyond memory raises
MEM_RANGE with VF and FB as they were. -/
def Obligations.DrawFlipsTheCoveredPixels : Prop :=
  ∀ (s : State) (x y : Reg) (n : Nibble) (rows : List Byte),
    decodeWord (word4 0xD x y n) = .drw x y n ∧
    (n.toNat = 0 ∨ s.index.toNat + n.toNat - 1 ≤ 0xFFF → rows.length = n.toNat →
    (∀ r, r < n.toNat → s.memRead (s.index.toNat + r) = .ok (rows.getD r 0)) →
    ∃ t, exec (.drw x y n) s = .next t ∧ t.pc = s.pc + 2 ∧
      (∀ px py, px < 64 → py < 32 →
        (t.pixel px py = true ↔ (s.pixel px py = true ↔
          ¬ Covers s.cfg.drawEdge ((s.reg x).toNat % 64) ((s.reg y).toNat % 32) rows px py))) ∧
      (t.reg flagReg = 0 ∨ t.reg flagReg = 1) ∧
      (t.reg flagReg = 1 ↔ ∃ px py, s.pixel px py = true ∧
        Covers s.cfg.drawEdge ((s.reg x).toNat % 64) ((s.reg y).toNat % 32) rows px py) ∧
      KeepsExcept (fun p => p = .pc ∨ p = .reg flagReg ∨ ∃ px py, p = .pixel px py) s t) ∧
    (0 < n.toNat ∧ 0xFFF < s.index.toNat + n.toNat - 1 → RaisesFault (.drw x y n) .memRange s)

/-- Two draws of the same sprite at the same place, with no other change to FB in between and the same I, N and
coordinates, restore every pixel, and the second sets VF = 1 exactly when a covered pixel is on after the first
(spec/44_display.md R806, marked there as derived). The second draw may name other registers and other V values, if the
coordinates they give are the same. -/
def Obligations.DrawingTwiceRestores : Prop :=
  ∀ (s t s' t' : State) (x y x' y' : Reg) (n : Nibble) (rows : List Byte),
    n.toNat = 0 ∨ s.index.toNat + n.toNat - 1 ≤ 0xFFF → rows.length = n.toNat →
    (∀ r, r < n.toNat → s.memRead (s.index.toNat + r) = .ok (rows.getD r 0)) →
    exec (.drw x y n) s = .next t →
    s'.fb = t.fb → s'.cfg = s.cfg → s'.mem = s.mem → s'.index = s.index →
    (s'.reg x').toNat % 64 = (s.reg x).toNat % 64 → (s'.reg y').toNat % 32 = (s.reg y).toNat % 32 →
    exec (.drw x' y' n) s' = .next t' →
    (∀ px py, px < 64 → py < 32 → t'.pixel px py = s.pixel px py) ∧
    (t'.reg flagReg = 1 ↔ ∃ px py, t.pixel px py = true ∧
      Covers s.cfg.drawEdge ((s.reg x).toNat % 64) ((s.reg y).toNat % 32) rows px py)

/-- R206: a non-empty I-relative block that reaches beyond 0xFFF raises MEM_RANGE, with no byte or register changed: N bytes
for DXYN, 3 for FX33, X + 1 for FX55 and FX65. -/
def Obligations.BlocksBeyondMemoryFault : Prop :=
  ∀ s : State,
    (∀ (x y : Reg) (n : Nibble), 0 < n.toNat → 0xFFF < s.index.toNat + n.toNat - 1 →
      RaisesFault (.drw x y n) .memRange s) ∧
    (∀ x : Reg, 0xFFF < s.index.toNat + 3 - 1 → RaisesFault (.ldB x) .memRange s) ∧
    (∀ x : Reg, 0xFFF < s.index.toNat + (x.toNat + 1) - 1 →
      RaisesFault (.ldMemVx x) .memRange s ∧ RaisesFault (.ldVxMem x) .memRange s)

/-- The FB port is row-major: FB[y × 64 + x] is the pixel in row y and column x (spec/10_state.md R116). -/
def Obligations.FbPortIsRowMajor : Prop :=
  ∀ (s : State) (x y : Nat), x < 64 → y < 32 → s.fbPort (y * 64 + x) = s.pixel x y

/-! ## Input and timers -/

/-- R900, R901, R902: with V[X] at most 15, SKP skips when that key is down and SKNP when it is up, changing nothing but PC;
above 15 both raise KEY_RANGE. -/
def Obligations.KeySkipsOrKeyRange : Prop :=
  ∀ (s : State) (x b : Nibble),
    decodeWord (word4 0xE x b 0xE) = .skp x ∧ decodeWord (word4 0xE x b 0x1) = .sknp x ∧
    ((s.reg x).toNat ≤ 15 →
      (∃ t, exec (.skp x) s = .next t ∧
        t.pc = (if s.keyDown (s.reg x).toNat = true then s.pc + 2 + 2 else s.pc + 2) ∧ Keeps [.pc] s t) ∧
      (∃ t, exec (.sknp x) s = .next t ∧
        t.pc = (if s.keyDown (s.reg x).toNat = false then s.pc + 2 + 2 else s.pc + 2) ∧ Keeps [.pc] s t)) ∧
    (15 < (s.reg x).toNat → RaisesFault (.skp x) .keyRange s ∧ RaisesFault (.sknp x) .keyRange s)

/-- R903: with a key down, FX0A stores the lowest one and goes on; with none, it leaves PC at its own address and changes
nothing. -/
def Obligations.KeyWaitTakesTheLowestKey : Prop :=
  ∀ (s : State) (x : Reg), decodeWord (wordXNN 0xF x 0x0A) = .ldVxK x ∧
    (∀ k, k < 16 → s.keyDown k = true → (∀ j, j < k → s.keyDown j = false) →
      ∃ t, exec (.ldVxK x) s = .next t ∧ (t.reg x).toNat = k ∧ t.pc = s.pc + 2 ∧ Keeps [.pc, .reg x] s t) ∧
    ((∀ k, k < 16 → s.keyDown k = false) → ∃ t, exec (.ldVxK x) s = .next t ∧ Keeps [] s t)

/-- While a core waits for a key, every Step completes, decrements the timers and changes nothing else a program can see,
and the core waits still (spec/45_input.md R903, R904; spec/10_state.md R121 is marked there as derived). -/
def Obligations.KeyWaitIsABusyWait : Prop :=
  ∀ s : State, s.faultCode = .none → s.awaitingKey → ∃ t, step s = .next t ∧ t.faultCode = .none ∧ t.awaitingKey ∧
    t.dt.toNat = s.dt.toNat - 1 ∧ t.st.toNat = s.st.toNat - 1 ∧ Keeps [.dt, .st, .ir, .rnd, .host] s t

/-- R1000, R1001, R1002: FX07 reads DT, FX15 writes DT and FX18 writes ST. -/
def Obligations.TimerReadsAndWrites : Prop :=
  ∀ (s : State) (x : Reg),
    (decodeWord (wordXNN 0xF x 0x07) = .ldVxDt x ∧ ∃ t, exec (.ldVxDt x) s = .next t ∧ t.reg x = s.dt ∧
      t.pc = s.pc + 2 ∧ Keeps [.pc, .reg x] s t) ∧
    (decodeWord (wordXNN 0xF x 0x15) = .ldDtVx x ∧ ∃ t, exec (.ldDtVx x) s = .next t ∧ t.dt = s.reg x ∧
      t.pc = s.pc + 2 ∧ Keeps [.pc, .dt] s t) ∧
    (decodeWord (wordXNN 0xF x 0x18) = .ldStVx x ∧ ∃ t, exec (.ldStVx x) s = .next t ∧ t.st = s.reg x ∧
      t.pc = s.pc + 2 ∧ Keeps [.pc, .st] s t)

/-- Over the whole Step FX07 gives DT before the Step's decrement, while FX15 and FX18 leave one less than they wrote, never
below 0 (spec/46_timers.md and spec/40_step_driver.md R406, marked there as derived). -/
def Obligations.TimerWritesTickInTheirStep : Prop :=
  ∀ (s t : State) (w : Word) (x : Reg), s.faultCode = .none → s.fetchWord = .ok w → step s = .next t →
    (decodeWord w = .ldVxDt x → t.reg x = s.dt ∧ t.dt.toNat = s.dt.toNat - 1) ∧
    (decodeWord w = .ldDtVx x → t.dt.toNat = (s.reg x).toNat - 1) ∧
    (decodeWord w = .ldStVx x → t.st.toNat = (s.reg x).toNat - 1)

/-! ## Memory block transfer -/

/-- R1100: with I + 2 inside memory FX33 stores the hundreds, tens and units of V[X] at I, I + 1 and I + 2; I and every other
byte and place but PC stay; beyond memory it raises MEM_RANGE. -/
def Obligations.BcdStoresThreeDigits : Prop :=
  ∀ (s : State) (x : Reg), decodeWord (wordXNN 0xF x 0x33) = .ldB x ∧
    (s.index.toNat + 2 ≤ 0xFFF →
      ∃ (t : State) (h d u : Byte), exec (.ldB x) s = .next t ∧ t.memRead s.index.toNat = .ok h ∧
        t.memRead (s.index.toNat + 1) = .ok d ∧ t.memRead (s.index.toNat + 2) = .ok u ∧
        h.toNat = (s.reg x).toNat / 100 ∧ d.toNat = (s.reg x).toNat / 10 % 10 ∧ u.toNat = (s.reg x).toNat % 10 ∧
        t.pc = s.pc + 2 ∧
        Keeps [.pc, .byte s.index.toNat, .byte (s.index.toNat + 1), .byte (s.index.toNat + 2)] s t) ∧
    (0xFFF < s.index.toNat + 2 → RaisesFault (.ldB x) .memRange s)

/-- R1101: with I + X inside memory FX55 stores V0 to VX at I to I + X; I and every other byte and place but PC stay; beyond
memory it raises MEM_RANGE. -/
def Obligations.StoreRegistersBlock : Prop :=
  ∀ (s : State) (x : Reg), decodeWord (wordXNN 0xF x 0x55) = .ldMemVx x ∧
    (s.index.toNat + x.toNat ≤ 0xFFF →
      ∃ t, exec (.ldMemVx x) s = .next t ∧
        (∀ r : Reg, r.toNat ≤ x.toNat → t.memRead (s.index.toNat + r.toNat) = .ok (s.reg r)) ∧ t.pc = s.pc + 2 ∧
        KeepsExcept (fun p => p = .pc ∨ ∃ k, k ≤ x.toNat ∧ p = .byte (s.index.toNat + k)) s t) ∧
    (0xFFF < s.index.toNat + x.toNat → RaisesFault (.ldMemVx x) .memRange s)

/-- R1102: with I + X inside memory FX65 loads V0 to VX from I to I + X; I, the registers above X and every other place but
PC stay; beyond memory it raises MEM_RANGE. -/
def Obligations.LoadRegistersBlock : Prop :=
  ∀ (s : State) (x : Reg), decodeWord (wordXNN 0xF x 0x65) = .ldVxMem x ∧
    (s.index.toNat + x.toNat ≤ 0xFFF →
      ∃ t, exec (.ldVxMem x) s = .next t ∧
        (∀ r : Reg, r.toNat ≤ x.toNat → s.memRead (s.index.toNat + r.toNat) = .ok (t.reg r)) ∧ t.pc = s.pc + 2 ∧
        KeepsExcept (fun p => p = .pc ∨ ∃ r : Reg, r.toNat ≤ x.toNat ∧ p = .reg r) s t) ∧
    (0xFFF < s.index.toNat + x.toNat → RaisesFault (.ldVxMem x) .memRange s)

/-- FX55 and then FX65 with the same X and I, and no write to memory in between, gives V0 to VX the values they had at the
FX55, whatever the registers hold meanwhile (spec/47_memory_block.md R1103, marked there as derived; DOC0 §8). -/
def Obligations.StoreThenLoadRoundTrips : Prop :=
  ∀ (s t s' u : State) (x : Reg), s.index.toNat + x.toNat ≤ 0xFFF → exec (.ldMemVx x) s = .next t →
    s'.mem = t.mem → s'.cfg = t.cfg → s'.index = t.index → exec (.ldVxMem x) s' = .next u →
    ∀ r : Reg, r.toNat ≤ x.toNat → u.reg r = s.reg r
end

