-- ==== Sys2Proof/Laws/Decode.lean ====
section
/-! SUPPORT. Reading a field back from a word built of fields, and a word from its two bytes (R11, R203). -/

namespace Sys2Proof

section Fields

variable (op x y n : Nibble) (nn : Byte) (nnn : Addr12)

@[simp] theorem fieldOp_word4 : fieldOp (word4 op x y n) = op := by
  ext i hi; simp [fieldOp, word4]; grind
@[simp] theorem fieldX_word4 : fieldX (word4 op x y n) = x := by
  ext i hi; simp [fieldX, word4]; grind
@[simp] theorem fieldY_word4 : fieldY (word4 op x y n) = y := by
  ext i hi; simp [fieldY, word4]; grind
@[simp] theorem fieldN_word4 : fieldN (word4 op x y n) = n := by
  ext i hi; simp [fieldN, word4]; grind
@[simp] theorem fieldOp_wordXNN : fieldOp (wordXNN op x nn) = op := by
  ext i hi; simp [fieldOp, wordXNN]; grind
@[simp] theorem fieldX_wordXNN : fieldX (wordXNN op x nn) = x := by
  ext i hi; simp [fieldX, wordXNN]; grind
@[simp] theorem fieldNN_wordXNN : fieldNN (wordXNN op x nn) = nn := by
  ext i hi; simp [fieldNN, wordXNN]; grind
@[simp] theorem fieldOp_wordNNN : fieldOp (wordNNN op nnn) = op := by
  ext i hi; simp [fieldOp, wordNNN]; grind
@[simp] theorem fieldNNN_wordNNN : fieldNNN (wordNNN op nnn) = nnn := by
  ext i hi; simp [fieldNNN, wordNNN]; grind

end Fields

/-- A word is its two bytes, the high one first. -/
@[simp] theorem wordOfBytes_hi_lo (w : Word) : wordOfBytes (hiByte w) (loByte w) = w := by
  ext i hi; simp [wordOfBytes, hiByte, loByte]; grind

@[simp] theorem hiByte_wordOfBytes (hi lo : Byte) : hiByte (wordOfBytes hi lo) = hi := by
  ext i h; simp [wordOfBytes, hiByte]; grind

@[simp] theorem loByte_wordOfBytes (hi lo : Byte) : loByte (wordOfBytes hi lo) = lo := by
  ext i h; simp [wordOfBytes, loByte]; grind

/-! Masks act field by field. -/

theorem word4_and (a b c d op x y n : Nibble) :
    word4 op x y n &&& word4 a b c d = word4 (op &&& a) (x &&& b) (y &&& c) (n &&& d) := by
  ext i hi; simp [word4]; grind

theorem wordXNN_and (a b : Nibble) (c : Byte) (op x : Nibble) (nn : Byte) :
    wordXNN op x nn &&& wordXNN a b c = wordXNN (op &&& a) (x &&& b) (nn &&& c) := by
  ext i hi; simp [wordXNN]; grind

theorem wordNNN_and (a : Nibble) (c : Addr12) (op : Nibble) (nnn : Addr12) :
    wordNNN op nnn &&& wordNNN a c = wordNNN (op &&& a) (nnn &&& c) := by
  ext i hi; simp [wordNNN]; grind

theorem nibble_and_ones (n : Nibble) : n &&& 15#4 = n := BitVec.and_allOnes

/-- The key bits of a family with a nibble key. -/
theorem word4_mask_F00F (op x y n : Nibble) : word4 op x y n &&& 0xF00F = word4 op 0 0 n :=
  (word4_and 0xF 0x0 0x0 0xF op x y n).trans (by simp [nibble_and_ones])

theorem word4_mask_F000 (op x y n : Nibble) : word4 op x y n &&& 0xF000 = word4 op 0 0 0 :=
  (word4_and 0xF 0x0 0x0 0x0 op x y n).trans (by simp [nibble_and_ones])

theorem wordXNN_mask_F000 (op x : Nibble) (nn : Byte) : wordXNN op x nn &&& 0xF000 = wordXNN op 0 0 :=
  (wordXNN_and 0xF 0x0 0x00 op x nn).trans (by simp [nibble_and_ones])

theorem wordXNN_mask_F00F (op x : Nibble) (nn : Byte) : wordXNN op x nn &&& 0xF00F = wordXNN op 0 (nn &&& 0x0F) :=
  (wordXNN_and 0xF 0x0 0x0F op x nn).trans (by simp [nibble_and_ones])

theorem wordXNN_mask_F0FF (op x : Nibble) (nn : Byte) : wordXNN op x nn &&& 0xF0FF = wordXNN op 0 nn := by
  have h : nn &&& 255#8 = nn := BitVec.and_allOnes
  exact (wordXNN_and 0xF 0x0 0xFF op x nn).trans (by simp [nibble_and_ones, h])

theorem wordNNN_mask_F000 (op : Nibble) (nnn : Addr12) : wordNNN op nnn &&& 0xF000 = wordNNN op 0 :=
  (wordNNN_and 0xF 0x000 op nnn).trans (by simp [nibble_and_ones])

end Sys2Proof
end

