-- ==== Sys2Proof/Laws/Display.lean ====
section
/-! SUPPORT. What drawing does to the framebuffer. A draw is a list of distinct visible spots, each flipped once (R801:
"No sprite touches the same pixel twice in one draw"), so a pixel is flipped exactly when the sprite covers it. -/

namespace Sys2Proof.Machine

/-- A flip changes its own pixel and no other. -/
theorem pixelOf_flipPixel (fb : Framebuffer) {x y px py : Nat} (hx : x < 64) (hpx : px < 64) (hpy : py < 32) :
    pixelOf (flipPixel fb x y) px py = (pixelOf fb px py ^^ decide (x = px ∧ y = py)) := by
  unfold flipPixel
  split
  · rename_i hy
    simp only [pixelOf, dif_pos hpy, Vector.getElem_set]
    by_cases h : y = py
    · subst h
      have hb : (1#64 <<< x).getLsbD px = decide (x = px) := by
        simp only [BitVec.getLsbD_shiftLeft, BitVec.getLsbD_one]
        by_cases e : x = px
        · subst e; simp [hx]
        · simp [hpx, e]; omega
      simp [hb]
    · simp [h]
  · have h : y ≠ py := by omega
    simp [h]

theorem pixelOf_blankScreen (x y : Nat) : pixelOf blankScreen x y = false := by
  simp [pixelOf, blankScreen]

/-- Two framebuffers with the same pixels are the same data. -/
theorem framebuffer_ext {fb fb' : Framebuffer} (h : ∀ x y, x < 64 → y < 32 → pixelOf fb x y = pixelOf fb' x y) :
    fb = fb' := by
  apply Vector.ext
  intro y hy
  apply BitVec.eq_of_getLsbD_eq
  intro x hx
  simpa [pixelOf, hy] using h x y hx hy

/-- The operand form `place` draws a sprite pixel exactly where R802 says it lands. -/
theorem place_eq_some_iff {edge : DrawEdge} {ax ay px py : Nat} :
    place edge ax ay = some (px, py) ↔ LandsOn edge ax ay px py := by
  cases edge <;> simp only [place, LandsOn]
  · split
    · simp only [reduceCtorEq, false_iff]; omega
    · simp only [Option.some.injEq, Prod.mk.injEq]; omega
  · simp only [Option.some.injEq, Prod.mk.injEq, eq_comm]

/-- A visible spot is on the screen (R802). -/
theorem place_visible {edge : DrawEdge} {ax ay px py : Nat} (h : place edge ax ay = some (px, py)) : px < 64 ∧ py < 32 := by
  cases edge <;> simp only [place] at h
  · split at h
    · cases h
    · simp only [Option.some.injEq, Prod.mk.injEq] at h; omega
  · simp only [Option.some.injEq, Prod.mk.injEq] at h; omega

/-- Two places within 64 columns and 32 rows of each other are drawn at the same pixel only if they are the same
place. -/
theorem place_injective {edge : DrawEdge} {ax ay bx by' : Nat} {p : Nat × Nat} (ha : place edge ax ay = some p)
    (hb : place edge bx by' = some p) (hx : ax < bx + 64) (hx' : bx < ax + 64) (hy : ay < by' + 32) (hy' : by' < ay + 32) :
    ax = bx ∧ ay = by' := by
  cases edge <;> simp only [place] at ha hb
  · split at ha
    · cases ha
    · split at hb
      · cases hb
      · simp only [Option.some.injEq] at ha hb
        simpa using ha.trans hb.symm
  · simp only [Option.some.injEq] at ha hb
    have := ha.trans hb.symm
    simp only [Prod.mk.injEq] at this
    omega

/-- The spots of one row, left to right from column 8 − n. -/
def columnSpots (edge : DrawEdge) (x0 ay : Nat) (b : Byte) : Nat → List (Nat × Nat)
  | 0 => []
  | n + 1 =>
    (if b.getLsbD n then (place edge (x0 + (7 - n)) ay).toList else []) ++ columnSpots edge x0 ay b n

/-- The spots of a sprite, row by row. -/
def spriteSpots (edge : DrawEdge) (x0 : Nat) : Nat → List Byte → List (Nat × Nat)
  | _, [] => []
  | ay, b :: bs => columnSpots edge x0 ay b 8 ++ spriteSpots edge x0 (ay + 1) bs

/-- Flipping a list of spots in order, noting a spot that was on. -/
def flipSpots : List (Nat × Nat) → Canvas → Canvas
  | [], d => d
  | p :: ps, d => flipSpots ps (flipPixel d.1 p.1 p.2, d.2 || pixelOf d.1 p.1 p.2)

theorem flipSpots_append (ps qs : List (Nat × Nat)) (d : Canvas) :
    flipSpots (ps ++ qs) d = flipSpots qs (flipSpots ps d) := by
  induction ps generalizing d with
  | nil => rfl
  | cons p ps ih => exact ih _

theorem drawPixel_eq (edge : DrawEdge) (ax ay : Nat) (d : Canvas) :
    drawPixel edge ax ay d = flipSpots (place edge ax ay).toList d := by
  unfold drawPixel
  split <;> simp_all [flipSpots]

theorem drawColumns_eq (edge : DrawEdge) (x0 ay : Nat) (b : Byte) (n : Nat) (d : Canvas) :
    drawColumns edge x0 ay b n d = flipSpots (columnSpots edge x0 ay b n) d := by
  induction n generalizing d with
  | zero => rfl
  | succ n ih =>
    rw [drawColumns, columnSpots, flipSpots_append, ih]
    congr 1
    split
    · exact drawPixel_eq ..
    · rfl

/-- A draw flips the sprite's spots in order. -/
theorem drawRows_eq (edge : DrawEdge) (x0 ay : Nat) (bs : List Byte) (d : Canvas) :
    drawRows edge x0 ay bs d = flipSpots (spriteSpots edge x0 ay bs) d := by
  induction bs generalizing ay d with
  | nil => rfl
  | cons b bs ih => rw [drawRows, spriteSpots, flipSpots_append, ih, drawColumns_eq]

theorem mem_columnSpots {edge : DrawEdge} {x0 ay : Nat} {b : Byte} {n : Nat} (hn : n ≤ 8) {p : Nat × Nat} :
    p ∈ columnSpots edge x0 ay b n ↔
      ∃ c, 8 - n ≤ c ∧ c < 8 ∧ b.getLsbD (7 - c) = true ∧ place edge (x0 + c) ay = some p := by
  induction n with
  | zero => simp only [columnSpots, List.not_mem_nil, false_iff]; rintro ⟨c, h, h', -⟩; omega
  | succ n ih =>
    rw [columnSpots, List.mem_append, ih (by omega)]
    constructor
    · rintro (h | ⟨c, h1, h2, h3⟩)
      · split at h
        · exact ⟨7 - n, by omega, by omega, by rwa [show 7 - (7 - n) = n by omega], by simpa using h⟩
        · cases h
      · exact ⟨c, by omega, h2, h3⟩
    · rintro ⟨c, h1, h2, h3, h4⟩
      by_cases hc : c = 7 - n
      · left
        rw [hc, show 7 - (7 - n) = n by omega] at h3
        rw [if_pos h3, ← hc]
        simpa using h4
      · exact .inr ⟨c, by omega, h2, h3, h4⟩

/-- The spots of a sprite are the pixels it covers. -/
theorem mem_spriteSpots {edge : DrawEdge} {x0 ay : Nat} {bs : List Byte} {px py : Nat} :
    (px, py) ∈ spriteSpots edge x0 ay bs ↔ Covers edge x0 ay bs px py := by
  induction bs generalizing ay with
  | nil => simp [spriteSpots, Covers]
  | cons b bs ih =>
    rw [spriteSpots, List.mem_append, ih, mem_columnSpots (Nat.le_refl 8)]
    simp only [Covers, place_eq_some_iff]
    constructor
    · rintro (⟨c, -, h2, h3, h4⟩ | ⟨r, c, h1, h2, h3, h4⟩)
      · exact ⟨0, c, by simp, h2, by simpa using h3, by simpa using h4⟩
      · exact ⟨r + 1, c, by simpa using h1, h2, by simpa using h3, by rwa [show ay + (r + 1) = ay + 1 + r by omega]⟩
    · rintro ⟨r, c, h1, h2, h3, h4⟩
      rcases r with _ | r
      · exact .inl ⟨c, by omega, h2, by simpa using h3, by simpa using h4⟩
      · exact .inr ⟨r, c, by simpa using h1, h2, by simpa using h3, by rwa [show ay + 1 + r = ay + (r + 1) by omega]⟩

theorem columnSpots_nodup (edge : DrawEdge) (x0 ay : Nat) (b : Byte) {n : Nat} (hn : n ≤ 8) :
    (columnSpots edge x0 ay b n).Nodup := by
  induction n with
  | zero => simp [columnSpots]
  | succ n ih =>
    rw [columnSpots, List.nodup_append]
    refine ⟨?_, ih (by omega), ?_⟩
    · split
      · cases place edge (x0 + (7 - n)) ay <;> simp
      · simp
    · rintro p hp q hq rfl
      obtain ⟨c, h1, h2, -, h4⟩ := (mem_columnSpots (by omega)).mp hq
      split at hp
      · have := (place_injective (by simpa using hp) h4 (by omega) (by omega) (by omega) (by omega)).1
        omega
      · cases hp

/-- A sprite of at most 32 rows has no spot twice (R801). -/
theorem spriteSpots_nodup (edge : DrawEdge) (x0 ay : Nat) (bs : List Byte) (h : bs.length ≤ 32) :
    (spriteSpots edge x0 ay bs).Nodup := by
  induction bs generalizing ay with
  | nil => simp [spriteSpots]
  | cons b bs ih =>
    simp only [List.length_cons] at h
    rw [spriteSpots, List.nodup_append]
    refine ⟨columnSpots_nodup _ _ _ _ (Nat.le_refl 8), ih _ (by omega), ?_⟩
    rintro ⟨px, py⟩ hp _ hq rfl
    obtain ⟨c, -, h2, -, h4⟩ := (mem_columnSpots (Nat.le_refl 8)).mp hp
    obtain ⟨r, c', h1', h2', -, h4'⟩ := mem_spriteSpots.mp hq
    have := (place_injective h4 (place_eq_some_iff.mpr h4') (by omega) (by omega) (by omega) (by omega)).2
    omega

/-- Flipping distinct visible spots: each is flipped once, and the note says whether one of them was on at the start. -/
theorem flipSpots_spec {ps : List (Nat × Nat)} (hv : ∀ p ∈ ps, p.1 < 64 ∧ p.2 < 32) (hn : ps.Nodup) (d : Canvas) :
    (∀ px py, px < 64 → py < 32 → pixelOf (flipSpots ps d).1 px py = (pixelOf d.1 px py ^^ decide ((px, py) ∈ ps))) ∧
      ((flipSpots ps d).2 = true ↔ d.2 = true ∨ ∃ p ∈ ps, pixelOf d.1 p.1 p.2 = true) := by
  induction ps generalizing d with
  | nil => simp [flipSpots]
  | cons p ps ih =>
    obtain ⟨hp, hv'⟩ := List.forall_mem_cons.mp hv
    obtain ⟨hne, hn'⟩ := List.nodup_cons.mp hn
    obtain ⟨i1, i2⟩ := ih hv' hn' (flipPixel d.1 p.1 p.2, d.2 || pixelOf d.1 p.1 p.2)
    constructor
    · intro px py hx hy
      rw [flipSpots, i1 px py hx hy, pixelOf_flipPixel _ hp.1 hx hy]
      by_cases h : p.1 = px ∧ p.2 = py
      · have hpe : (px, py) = p := Prod.ext h.1.symm h.2.symm
        simp [h, hpe, hne]
      · have hpe : (px, py) ≠ p := fun q => h ⟨by rw [← q], by rw [← q]⟩
        simp [h, hpe]
    · rw [flipSpots, i2]
      have hold : ∀ q ∈ ps, pixelOf (flipPixel d.1 p.1 p.2) q.1 q.2 = pixelOf d.1 q.1 q.2 := fun q hq => by
        rw [pixelOf_flipPixel _ hp.1 (hv' q hq).1 (hv' q hq).2]
        have : ¬ (p.1 = q.1 ∧ p.2 = q.2) := fun e => hne ((Prod.ext e.1 e.2 : p = q) ▸ hq)
        simp [this]
      simp only [Bool.or_eq_true, List.exists_mem_cons_iff, or_assoc]
      exact or_congr_right (or_congr_right (exists_congr fun q => and_congr_right fun hq => by rw [hold q hq]))

/-- A draw flips exactly the pixels the sprite covers (R800, R802, R805). -/
theorem drawRows_pixel (edge : DrawEdge) (x0 y0 : Nat) (bs : List Byte) (d : Canvas) (h : bs.length ≤ 32) {px py : Nat}
    (hx : px < 64) (hy : py < 32) :
    pixelOf (drawRows edge x0 y0 bs d).1 px py = true ↔
      (pixelOf d.1 px py = true ↔ ¬ Covers edge x0 y0 bs px py) := by
  have hv : ∀ p ∈ spriteSpots edge x0 y0 bs, p.1 < 64 ∧ p.2 < 32 := fun p hp => by
    obtain ⟨_, _, _, _, _, q⟩ := mem_spriteSpots.mp hp; exact place_visible (place_eq_some_iff.mpr q)
  rw [drawRows_eq, (flipSpots_spec hv (spriteSpots_nodup _ _ _ _ h) d).1 px py hx hy, ← mem_spriteSpots]
  by_cases hm : (px, py) ∈ spriteSpots edge x0 y0 bs <;> simp [hm]

/-- A draw notes a collision exactly when the sprite covers a pixel that was on before it (R801). -/
theorem drawRows_collision (edge : DrawEdge) (x0 y0 : Nat) (bs : List Byte) (fb : Framebuffer) (h : bs.length ≤ 32) :
    (drawRows edge x0 y0 bs (fb, false)).2 = true ↔
      ∃ px py, pixelOf fb px py = true ∧ Covers edge x0 y0 bs px py := by
  have hv : ∀ p ∈ spriteSpots edge x0 y0 bs, p.1 < 64 ∧ p.2 < 32 := fun p hp => by
    obtain ⟨_, _, _, _, _, q⟩ := mem_spriteSpots.mp hp; exact place_visible (place_eq_some_iff.mpr q)
  rw [drawRows_eq, (flipSpots_spec hv (spriteSpots_nodup _ _ _ _ h) _).2]
  simp only [Bool.false_eq_true, false_or]
  constructor
  · rintro ⟨p, hp, hq⟩; exact ⟨p.1, p.2, hq, mem_spriteSpots.mp hp⟩
  · rintro ⟨px, py, hq, hc⟩; exact ⟨(px, py), mem_spriteSpots.mpr hc, hq⟩

end Sys2Proof.Machine
end

