-- ==== Sys2Proof/Laws/State.lean ====
section
/-! SUPPORT. Each named update of State read through each field: an untouched field is the old one. No later proof
unfolds a record update. -/

namespace Sys2Proof.Machine

/-! ## setReg -/

@[simp] theorem State.setReg_cfg (s : State) (x : Reg) (b : Byte) : (s.setReg x b).cfg = s.cfg := rfl
@[simp] theorem State.setReg_pc (s : State) (x : Reg) (b : Byte) : (s.setReg x b).pc = s.pc := rfl
@[simp] theorem State.setReg_index (s : State) (x : Reg) (b : Byte) : (s.setReg x b).index = s.index := rfl
@[simp] theorem State.setReg_sp (s : State) (x : Reg) (b : Byte) : (s.setReg x b).sp = s.sp := rfl
@[simp] theorem State.setReg_stack (s : State) (x : Reg) (b : Byte) : (s.setReg x b).stack = s.stack := rfl
@[simp] theorem State.setReg_dt (s : State) (x : Reg) (b : Byte) : (s.setReg x b).dt = s.dt := rfl
@[simp] theorem State.setReg_st (s : State) (x : Reg) (b : Byte) : (s.setReg x b).st = s.st := rfl
@[simp] theorem State.setReg_mem (s : State) (x : Reg) (b : Byte) : (s.setReg x b).mem = s.mem := rfl
@[simp] theorem State.setReg_fb (s : State) (x : Reg) (b : Byte) : (s.setReg x b).fb = s.fb := rfl
@[simp] theorem State.setReg_keys (s : State) (x : Reg) (b : Byte) : (s.setReg x b).keys = s.keys := rfl
@[simp] theorem State.setReg_rnd (s : State) (x : Reg) (b : Byte) : (s.setReg x b).rnd = s.rnd := rfl
@[simp] theorem State.setReg_rndCount (s : State) (x : Reg) (b : Byte) : (s.setReg x b).rndCount = s.rndCount := rfl
@[simp] theorem State.setReg_ir (s : State) (x : Reg) (b : Byte) : (s.setReg x b).ir = s.ir := rfl
@[simp] theorem State.setReg_faultCode (s : State) (x : Reg) (b : Byte) : (s.setReg x b).faultCode = s.faultCode := rfl
@[simp] theorem State.setReg_faultPc (s : State) (x : Reg) (b : Byte) : (s.setReg x b).faultPc = s.faultPc := rfl
@[simp] theorem State.setReg_faultIr (s : State) (x : Reg) (b : Byte) : (s.setReg x b).faultIr = s.faultIr := rfl
@[simp] theorem State.setReg_loaded (s : State) (x : Reg) (b : Byte) : (s.setReg x b).loaded = s.loaded := rfl
@[simp] theorem State.setReg_stepped (s : State) (x : Reg) (b : Byte) : (s.setReg x b).stepped = s.stepped := rfl

/-! ## setPc -/

@[simp] theorem State.setPc_cfg (s : State) (w : Word) : (s.setPc w).cfg = s.cfg := rfl
@[simp] theorem State.setPc_v (s : State) (w : Word) : (s.setPc w).v = s.v := rfl
@[simp] theorem State.setPc_pc (s : State) (w : Word) : (s.setPc w).pc = w := rfl
@[simp] theorem State.setPc_index (s : State) (w : Word) : (s.setPc w).index = s.index := rfl
@[simp] theorem State.setPc_sp (s : State) (w : Word) : (s.setPc w).sp = s.sp := rfl
@[simp] theorem State.setPc_stack (s : State) (w : Word) : (s.setPc w).stack = s.stack := rfl
@[simp] theorem State.setPc_dt (s : State) (w : Word) : (s.setPc w).dt = s.dt := rfl
@[simp] theorem State.setPc_st (s : State) (w : Word) : (s.setPc w).st = s.st := rfl
@[simp] theorem State.setPc_mem (s : State) (w : Word) : (s.setPc w).mem = s.mem := rfl
@[simp] theorem State.setPc_fb (s : State) (w : Word) : (s.setPc w).fb = s.fb := rfl
@[simp] theorem State.setPc_keys (s : State) (w : Word) : (s.setPc w).keys = s.keys := rfl
@[simp] theorem State.setPc_rnd (s : State) (w : Word) : (s.setPc w).rnd = s.rnd := rfl
@[simp] theorem State.setPc_rndCount (s : State) (w : Word) : (s.setPc w).rndCount = s.rndCount := rfl
@[simp] theorem State.setPc_ir (s : State) (w : Word) : (s.setPc w).ir = s.ir := rfl
@[simp] theorem State.setPc_faultCode (s : State) (w : Word) : (s.setPc w).faultCode = s.faultCode := rfl
@[simp] theorem State.setPc_faultPc (s : State) (w : Word) : (s.setPc w).faultPc = s.faultPc := rfl
@[simp] theorem State.setPc_faultIr (s : State) (w : Word) : (s.setPc w).faultIr = s.faultIr := rfl
@[simp] theorem State.setPc_loaded (s : State) (w : Word) : (s.setPc w).loaded = s.loaded := rfl
@[simp] theorem State.setPc_stepped (s : State) (w : Word) : (s.setPc w).stepped = s.stepped := rfl

/-! ## advance -/

@[simp] theorem State.advance_cfg (s : State) : s.advance.cfg = s.cfg := rfl
@[simp] theorem State.advance_v (s : State) : s.advance.v = s.v := rfl
@[simp] theorem State.advance_pc (s : State) : s.advance.pc = s.pc + 2 := rfl
@[simp] theorem State.advance_index (s : State) : s.advance.index = s.index := rfl
@[simp] theorem State.advance_sp (s : State) : s.advance.sp = s.sp := rfl
@[simp] theorem State.advance_stack (s : State) : s.advance.stack = s.stack := rfl
@[simp] theorem State.advance_dt (s : State) : s.advance.dt = s.dt := rfl
@[simp] theorem State.advance_st (s : State) : s.advance.st = s.st := rfl
@[simp] theorem State.advance_mem (s : State) : s.advance.mem = s.mem := rfl
@[simp] theorem State.advance_fb (s : State) : s.advance.fb = s.fb := rfl
@[simp] theorem State.advance_keys (s : State) : s.advance.keys = s.keys := rfl
@[simp] theorem State.advance_rnd (s : State) : s.advance.rnd = s.rnd := rfl
@[simp] theorem State.advance_rndCount (s : State) : s.advance.rndCount = s.rndCount := rfl
@[simp] theorem State.advance_ir (s : State) : s.advance.ir = s.ir := rfl
@[simp] theorem State.advance_faultCode (s : State) : s.advance.faultCode = s.faultCode := rfl
@[simp] theorem State.advance_faultPc (s : State) : s.advance.faultPc = s.faultPc := rfl
@[simp] theorem State.advance_faultIr (s : State) : s.advance.faultIr = s.faultIr := rfl
@[simp] theorem State.advance_loaded (s : State) : s.advance.loaded = s.loaded := rfl
@[simp] theorem State.advance_stepped (s : State) : s.advance.stepped = s.stepped := rfl

/-! ## skipIf -/

@[simp] theorem State.skipIf_cfg (s : State) (c : Bool) : (s.skipIf c).cfg = s.cfg := by
  cases c <;> rfl
@[simp] theorem State.skipIf_v (s : State) (c : Bool) : (s.skipIf c).v = s.v := by
  cases c <;> rfl
@[simp] theorem State.skipIf_index (s : State) (c : Bool) : (s.skipIf c).index = s.index := by
  cases c <;> rfl
@[simp] theorem State.skipIf_sp (s : State) (c : Bool) : (s.skipIf c).sp = s.sp := by
  cases c <;> rfl
@[simp] theorem State.skipIf_stack (s : State) (c : Bool) : (s.skipIf c).stack = s.stack := by
  cases c <;> rfl
@[simp] theorem State.skipIf_dt (s : State) (c : Bool) : (s.skipIf c).dt = s.dt := by
  cases c <;> rfl
@[simp] theorem State.skipIf_st (s : State) (c : Bool) : (s.skipIf c).st = s.st := by
  cases c <;> rfl
@[simp] theorem State.skipIf_mem (s : State) (c : Bool) : (s.skipIf c).mem = s.mem := by
  cases c <;> rfl
@[simp] theorem State.skipIf_fb (s : State) (c : Bool) : (s.skipIf c).fb = s.fb := by
  cases c <;> rfl
@[simp] theorem State.skipIf_keys (s : State) (c : Bool) : (s.skipIf c).keys = s.keys := by
  cases c <;> rfl
@[simp] theorem State.skipIf_rnd (s : State) (c : Bool) : (s.skipIf c).rnd = s.rnd := by
  cases c <;> rfl
@[simp] theorem State.skipIf_rndCount (s : State) (c : Bool) : (s.skipIf c).rndCount = s.rndCount := by
  cases c <;> rfl
@[simp] theorem State.skipIf_ir (s : State) (c : Bool) : (s.skipIf c).ir = s.ir := by
  cases c <;> rfl
@[simp] theorem State.skipIf_faultCode (s : State) (c : Bool) : (s.skipIf c).faultCode = s.faultCode := by
  cases c <;> rfl
@[simp] theorem State.skipIf_faultPc (s : State) (c : Bool) : (s.skipIf c).faultPc = s.faultPc := by
  cases c <;> rfl
@[simp] theorem State.skipIf_faultIr (s : State) (c : Bool) : (s.skipIf c).faultIr = s.faultIr := by
  cases c <;> rfl
@[simp] theorem State.skipIf_loaded (s : State) (c : Bool) : (s.skipIf c).loaded = s.loaded := by
  cases c <;> rfl
@[simp] theorem State.skipIf_stepped (s : State) (c : Bool) : (s.skipIf c).stepped = s.stepped := by
  cases c <;> rfl

theorem State.skipIf_pc (s : State) (c : Bool) : (s.skipIf c).pc = if c then s.pc + 2 else s.pc := by
  cases c <;> rfl

/-! ## setResultFlag -/

@[simp] theorem State.setResultFlag_cfg (s : State) (x : Reg) (r f : Byte) : (s.setResultFlag x r f).cfg = s.cfg := rfl
@[simp] theorem State.setResultFlag_pc (s : State) (x : Reg) (r f : Byte) : (s.setResultFlag x r f).pc = s.pc := rfl
@[simp] theorem State.setResultFlag_index (s : State) (x : Reg) (r f : Byte) : (s.setResultFlag x r f).index = s.index := rfl
@[simp] theorem State.setResultFlag_sp (s : State) (x : Reg) (r f : Byte) : (s.setResultFlag x r f).sp = s.sp := rfl
@[simp] theorem State.setResultFlag_stack (s : State) (x : Reg) (r f : Byte) : (s.setResultFlag x r f).stack = s.stack := rfl
@[simp] theorem State.setResultFlag_dt (s : State) (x : Reg) (r f : Byte) : (s.setResultFlag x r f).dt = s.dt := rfl
@[simp] theorem State.setResultFlag_st (s : State) (x : Reg) (r f : Byte) : (s.setResultFlag x r f).st = s.st := rfl
@[simp] theorem State.setResultFlag_mem (s : State) (x : Reg) (r f : Byte) : (s.setResultFlag x r f).mem = s.mem := rfl
@[simp] theorem State.setResultFlag_fb (s : State) (x : Reg) (r f : Byte) : (s.setResultFlag x r f).fb = s.fb := rfl
@[simp] theorem State.setResultFlag_keys (s : State) (x : Reg) (r f : Byte) : (s.setResultFlag x r f).keys = s.keys := rfl
@[simp] theorem State.setResultFlag_rnd (s : State) (x : Reg) (r f : Byte) : (s.setResultFlag x r f).rnd = s.rnd := rfl
@[simp] theorem State.setResultFlag_rndCount (s : State) (x : Reg) (r f : Byte) : (s.setResultFlag x r f).rndCount = s.rndCount := rfl
@[simp] theorem State.setResultFlag_ir (s : State) (x : Reg) (r f : Byte) : (s.setResultFlag x r f).ir = s.ir := rfl
@[simp] theorem State.setResultFlag_faultCode (s : State) (x : Reg) (r f : Byte) : (s.setResultFlag x r f).faultCode = s.faultCode := rfl
@[simp] theorem State.setResultFlag_faultPc (s : State) (x : Reg) (r f : Byte) : (s.setResultFlag x r f).faultPc = s.faultPc := rfl
@[simp] theorem State.setResultFlag_faultIr (s : State) (x : Reg) (r f : Byte) : (s.setResultFlag x r f).faultIr = s.faultIr := rfl
@[simp] theorem State.setResultFlag_loaded (s : State) (x : Reg) (r f : Byte) : (s.setResultFlag x r f).loaded = s.loaded := rfl
@[simp] theorem State.setResultFlag_stepped (s : State) (x : Reg) (r f : Byte) : (s.setResultFlag x r f).stepped = s.stepped := rfl

/-! ## setLogic -/

@[simp] theorem State.setLogic_cfg (s : State) (x : Reg) (r : Byte) : (s.setLogic x r).cfg = s.cfg := by
  unfold State.setLogic; split <;> rfl
@[simp] theorem State.setLogic_pc (s : State) (x : Reg) (r : Byte) : (s.setLogic x r).pc = s.pc := by
  unfold State.setLogic; split <;> rfl
@[simp] theorem State.setLogic_index (s : State) (x : Reg) (r : Byte) : (s.setLogic x r).index = s.index := by
  unfold State.setLogic; split <;> rfl
@[simp] theorem State.setLogic_sp (s : State) (x : Reg) (r : Byte) : (s.setLogic x r).sp = s.sp := by
  unfold State.setLogic; split <;> rfl
@[simp] theorem State.setLogic_stack (s : State) (x : Reg) (r : Byte) : (s.setLogic x r).stack = s.stack := by
  unfold State.setLogic; split <;> rfl
@[simp] theorem State.setLogic_dt (s : State) (x : Reg) (r : Byte) : (s.setLogic x r).dt = s.dt := by
  unfold State.setLogic; split <;> rfl
@[simp] theorem State.setLogic_st (s : State) (x : Reg) (r : Byte) : (s.setLogic x r).st = s.st := by
  unfold State.setLogic; split <;> rfl
@[simp] theorem State.setLogic_mem (s : State) (x : Reg) (r : Byte) : (s.setLogic x r).mem = s.mem := by
  unfold State.setLogic; split <;> rfl
@[simp] theorem State.setLogic_fb (s : State) (x : Reg) (r : Byte) : (s.setLogic x r).fb = s.fb := by
  unfold State.setLogic; split <;> rfl
@[simp] theorem State.setLogic_keys (s : State) (x : Reg) (r : Byte) : (s.setLogic x r).keys = s.keys := by
  unfold State.setLogic; split <;> rfl
@[simp] theorem State.setLogic_rnd (s : State) (x : Reg) (r : Byte) : (s.setLogic x r).rnd = s.rnd := by
  unfold State.setLogic; split <;> rfl
@[simp] theorem State.setLogic_rndCount (s : State) (x : Reg) (r : Byte) : (s.setLogic x r).rndCount = s.rndCount := by
  unfold State.setLogic; split <;> rfl
@[simp] theorem State.setLogic_ir (s : State) (x : Reg) (r : Byte) : (s.setLogic x r).ir = s.ir := by
  unfold State.setLogic; split <;> rfl
@[simp] theorem State.setLogic_faultCode (s : State) (x : Reg) (r : Byte) : (s.setLogic x r).faultCode = s.faultCode := by
  unfold State.setLogic; split <;> rfl
@[simp] theorem State.setLogic_faultPc (s : State) (x : Reg) (r : Byte) : (s.setLogic x r).faultPc = s.faultPc := by
  unfold State.setLogic; split <;> rfl
@[simp] theorem State.setLogic_faultIr (s : State) (x : Reg) (r : Byte) : (s.setLogic x r).faultIr = s.faultIr := by
  unfold State.setLogic; split <;> rfl
@[simp] theorem State.setLogic_loaded (s : State) (x : Reg) (r : Byte) : (s.setLogic x r).loaded = s.loaded := by
  unfold State.setLogic; split <;> rfl
@[simp] theorem State.setLogic_stepped (s : State) (x : Reg) (r : Byte) : (s.setLogic x r).stepped = s.stepped := by
  unfold State.setLogic; split <;> rfl

/-! ## takeFault -/

@[simp] theorem State.takeFault_cfg (s : State) (c : FaultCode) : (s.takeFault c).cfg = s.cfg := rfl
@[simp] theorem State.takeFault_v (s : State) (c : FaultCode) : (s.takeFault c).v = s.v := rfl
@[simp] theorem State.takeFault_pc (s : State) (c : FaultCode) : (s.takeFault c).pc = s.pc := rfl
@[simp] theorem State.takeFault_index (s : State) (c : FaultCode) : (s.takeFault c).index = s.index := rfl
@[simp] theorem State.takeFault_sp (s : State) (c : FaultCode) : (s.takeFault c).sp = s.sp := rfl
@[simp] theorem State.takeFault_stack (s : State) (c : FaultCode) : (s.takeFault c).stack = s.stack := rfl
@[simp] theorem State.takeFault_dt (s : State) (c : FaultCode) : (s.takeFault c).dt = s.dt := rfl
@[simp] theorem State.takeFault_st (s : State) (c : FaultCode) : (s.takeFault c).st = s.st := rfl
@[simp] theorem State.takeFault_mem (s : State) (c : FaultCode) : (s.takeFault c).mem = s.mem := rfl
@[simp] theorem State.takeFault_fb (s : State) (c : FaultCode) : (s.takeFault c).fb = s.fb := rfl
@[simp] theorem State.takeFault_keys (s : State) (c : FaultCode) : (s.takeFault c).keys = s.keys := rfl
@[simp] theorem State.takeFault_rnd (s : State) (c : FaultCode) : (s.takeFault c).rnd = s.rnd := rfl
@[simp] theorem State.takeFault_rndCount (s : State) (c : FaultCode) : (s.takeFault c).rndCount = s.rndCount := rfl
@[simp] theorem State.takeFault_ir (s : State) (c : FaultCode) : (s.takeFault c).ir = s.ir := rfl
@[simp] theorem State.takeFault_faultCode (s : State) (c : FaultCode) : (s.takeFault c).faultCode = c := rfl
@[simp] theorem State.takeFault_faultPc (s : State) (c : FaultCode) : (s.takeFault c).faultPc = s.pc := rfl
@[simp] theorem State.takeFault_faultIr (s : State) (c : FaultCode) : (s.takeFault c).faultIr = s.faultWord c := rfl
@[simp] theorem State.takeFault_loaded (s : State) (c : FaultCode) : (s.takeFault c).loaded = s.loaded := rfl
@[simp] theorem State.takeFault_stepped (s : State) (c : FaultCode) : (s.takeFault c).stepped = s.stepped := rfl

/-! ## markStepped -/

@[simp] theorem State.markStepped_cfg (s : State) : s.markStepped.cfg = s.cfg := rfl
@[simp] theorem State.markStepped_v (s : State) : s.markStepped.v = s.v := rfl
@[simp] theorem State.markStepped_pc (s : State) : s.markStepped.pc = s.pc := rfl
@[simp] theorem State.markStepped_index (s : State) : s.markStepped.index = s.index := rfl
@[simp] theorem State.markStepped_sp (s : State) : s.markStepped.sp = s.sp := rfl
@[simp] theorem State.markStepped_stack (s : State) : s.markStepped.stack = s.stack := rfl
@[simp] theorem State.markStepped_dt (s : State) : s.markStepped.dt = s.dt := rfl
@[simp] theorem State.markStepped_st (s : State) : s.markStepped.st = s.st := rfl
@[simp] theorem State.markStepped_mem (s : State) : s.markStepped.mem = s.mem := rfl
@[simp] theorem State.markStepped_fb (s : State) : s.markStepped.fb = s.fb := rfl
@[simp] theorem State.markStepped_keys (s : State) : s.markStepped.keys = s.keys := rfl
@[simp] theorem State.markStepped_rnd (s : State) : s.markStepped.rnd = s.rnd := rfl
@[simp] theorem State.markStepped_rndCount (s : State) : s.markStepped.rndCount = s.rndCount := rfl
@[simp] theorem State.markStepped_ir (s : State) : s.markStepped.ir = s.ir := rfl
@[simp] theorem State.markStepped_faultCode (s : State) : s.markStepped.faultCode = s.faultCode := rfl
@[simp] theorem State.markStepped_faultPc (s : State) : s.markStepped.faultPc = s.faultPc := rfl
@[simp] theorem State.markStepped_faultIr (s : State) : s.markStepped.faultIr = s.faultIr := rfl
@[simp] theorem State.markStepped_loaded (s : State) : s.markStepped.loaded = s.loaded := rfl
@[simp] theorem State.markStepped_stepped (s : State) : s.markStepped.stepped = true := rfl

/-! ## complete -/

@[simp] theorem State.complete_cfg (s : State) (w : Word) : (s.complete w).cfg = s.cfg := rfl
@[simp] theorem State.complete_v (s : State) (w : Word) : (s.complete w).v = s.v := rfl
@[simp] theorem State.complete_pc (s : State) (w : Word) : (s.complete w).pc = s.pc := rfl
@[simp] theorem State.complete_index (s : State) (w : Word) : (s.complete w).index = s.index := rfl
@[simp] theorem State.complete_sp (s : State) (w : Word) : (s.complete w).sp = s.sp := rfl
@[simp] theorem State.complete_stack (s : State) (w : Word) : (s.complete w).stack = s.stack := rfl
@[simp] theorem State.complete_dt (s : State) (w : Word) : (s.complete w).dt = tick s.dt := rfl
@[simp] theorem State.complete_st (s : State) (w : Word) : (s.complete w).st = tick s.st := rfl
@[simp] theorem State.complete_mem (s : State) (w : Word) : (s.complete w).mem = s.mem := rfl
@[simp] theorem State.complete_fb (s : State) (w : Word) : (s.complete w).fb = s.fb := rfl
@[simp] theorem State.complete_keys (s : State) (w : Word) : (s.complete w).keys = s.keys := rfl
@[simp] theorem State.complete_rnd (s : State) (w : Word) : (s.complete w).rnd = Option.none := rfl
@[simp] theorem State.complete_rndCount (s : State) (w : Word) : (s.complete w).rndCount = s.rndCount + 1 := rfl
@[simp] theorem State.complete_ir (s : State) (w : Word) : (s.complete w).ir = w := rfl
@[simp] theorem State.complete_faultCode (s : State) (w : Word) : (s.complete w).faultCode = s.faultCode := rfl
@[simp] theorem State.complete_faultPc (s : State) (w : Word) : (s.complete w).faultPc = s.faultPc := rfl
@[simp] theorem State.complete_faultIr (s : State) (w : Word) : (s.complete w).faultIr = s.faultIr := rfl
@[simp] theorem State.complete_loaded (s : State) (w : Word) : (s.complete w).loaded = s.loaded := rfl
@[simp] theorem State.complete_stepped (s : State) (w : Word) : (s.complete w).stepped = s.stepped := rfl

/-! ## setKeys -/

@[simp] theorem State.setKeys_cfg (s : State) (k : BitVec 16) : (s.setKeys k).cfg = s.cfg := rfl
@[simp] theorem State.setKeys_v (s : State) (k : BitVec 16) : (s.setKeys k).v = s.v := rfl
@[simp] theorem State.setKeys_pc (s : State) (k : BitVec 16) : (s.setKeys k).pc = s.pc := rfl
@[simp] theorem State.setKeys_index (s : State) (k : BitVec 16) : (s.setKeys k).index = s.index := rfl
@[simp] theorem State.setKeys_sp (s : State) (k : BitVec 16) : (s.setKeys k).sp = s.sp := rfl
@[simp] theorem State.setKeys_stack (s : State) (k : BitVec 16) : (s.setKeys k).stack = s.stack := rfl
@[simp] theorem State.setKeys_dt (s : State) (k : BitVec 16) : (s.setKeys k).dt = s.dt := rfl
@[simp] theorem State.setKeys_st (s : State) (k : BitVec 16) : (s.setKeys k).st = s.st := rfl
@[simp] theorem State.setKeys_mem (s : State) (k : BitVec 16) : (s.setKeys k).mem = s.mem := rfl
@[simp] theorem State.setKeys_fb (s : State) (k : BitVec 16) : (s.setKeys k).fb = s.fb := rfl
@[simp] theorem State.setKeys_keys (s : State) (k : BitVec 16) : (s.setKeys k).keys = k := rfl
@[simp] theorem State.setKeys_rnd (s : State) (k : BitVec 16) : (s.setKeys k).rnd = s.rnd := rfl
@[simp] theorem State.setKeys_rndCount (s : State) (k : BitVec 16) : (s.setKeys k).rndCount = s.rndCount := rfl
@[simp] theorem State.setKeys_ir (s : State) (k : BitVec 16) : (s.setKeys k).ir = s.ir := rfl
@[simp] theorem State.setKeys_faultCode (s : State) (k : BitVec 16) : (s.setKeys k).faultCode = s.faultCode := rfl
@[simp] theorem State.setKeys_faultPc (s : State) (k : BitVec 16) : (s.setKeys k).faultPc = s.faultPc := rfl
@[simp] theorem State.setKeys_faultIr (s : State) (k : BitVec 16) : (s.setKeys k).faultIr = s.faultIr := rfl
@[simp] theorem State.setKeys_loaded (s : State) (k : BitVec 16) : (s.setKeys k).loaded = s.loaded := rfl
@[simp] theorem State.setKeys_stepped (s : State) (k : BitVec 16) : (s.setKeys k).stepped = s.stepped := rfl

/-! ## setRnd -/

@[simp] theorem State.setRnd_cfg (s : State) (b : Byte) : (s.setRnd b).cfg = s.cfg := rfl
@[simp] theorem State.setRnd_v (s : State) (b : Byte) : (s.setRnd b).v = s.v := rfl
@[simp] theorem State.setRnd_pc (s : State) (b : Byte) : (s.setRnd b).pc = s.pc := rfl
@[simp] theorem State.setRnd_index (s : State) (b : Byte) : (s.setRnd b).index = s.index := rfl
@[simp] theorem State.setRnd_sp (s : State) (b : Byte) : (s.setRnd b).sp = s.sp := rfl
@[simp] theorem State.setRnd_stack (s : State) (b : Byte) : (s.setRnd b).stack = s.stack := rfl
@[simp] theorem State.setRnd_dt (s : State) (b : Byte) : (s.setRnd b).dt = s.dt := rfl
@[simp] theorem State.setRnd_st (s : State) (b : Byte) : (s.setRnd b).st = s.st := rfl
@[simp] theorem State.setRnd_mem (s : State) (b : Byte) : (s.setRnd b).mem = s.mem := rfl
@[simp] theorem State.setRnd_fb (s : State) (b : Byte) : (s.setRnd b).fb = s.fb := rfl
@[simp] theorem State.setRnd_keys (s : State) (b : Byte) : (s.setRnd b).keys = s.keys := rfl
@[simp] theorem State.setRnd_rnd (s : State) (b : Byte) : (s.setRnd b).rnd = some b := rfl
@[simp] theorem State.setRnd_rndCount (s : State) (b : Byte) : (s.setRnd b).rndCount = s.rndCount := rfl
@[simp] theorem State.setRnd_ir (s : State) (b : Byte) : (s.setRnd b).ir = s.ir := rfl
@[simp] theorem State.setRnd_faultCode (s : State) (b : Byte) : (s.setRnd b).faultCode = s.faultCode := rfl
@[simp] theorem State.setRnd_faultPc (s : State) (b : Byte) : (s.setRnd b).faultPc = s.faultPc := rfl
@[simp] theorem State.setRnd_faultIr (s : State) (b : Byte) : (s.setRnd b).faultIr = s.faultIr := rfl
@[simp] theorem State.setRnd_loaded (s : State) (b : Byte) : (s.setRnd b).loaded = s.loaded := rfl
@[simp] theorem State.setRnd_stepped (s : State) (b : Byte) : (s.setRnd b).stepped = s.stepped := rfl

/-! ## ack -/

@[simp] theorem State.ack_cfg (s : State) : s.ack.cfg = s.cfg := by
  unfold State.ack; split <;> rfl
@[simp] theorem State.ack_v (s : State) : s.ack.v = s.v := by
  unfold State.ack; split <;> rfl
@[simp] theorem State.ack_pc (s : State) : s.ack.pc = s.pc := by
  unfold State.ack; split <;> rfl
@[simp] theorem State.ack_index (s : State) : s.ack.index = s.index := by
  unfold State.ack; split <;> rfl
@[simp] theorem State.ack_sp (s : State) : s.ack.sp = s.sp := by
  unfold State.ack; split <;> rfl
@[simp] theorem State.ack_stack (s : State) : s.ack.stack = s.stack := by
  unfold State.ack; split <;> rfl
@[simp] theorem State.ack_dt (s : State) : s.ack.dt = s.dt := by
  unfold State.ack; split <;> rfl
@[simp] theorem State.ack_st (s : State) : s.ack.st = s.st := by
  unfold State.ack; split <;> rfl
@[simp] theorem State.ack_mem (s : State) : s.ack.mem = s.mem := by
  unfold State.ack; split <;> rfl
@[simp] theorem State.ack_fb (s : State) : s.ack.fb = s.fb := by
  unfold State.ack; split <;> rfl
@[simp] theorem State.ack_keys (s : State) : s.ack.keys = s.keys := by
  unfold State.ack; split <;> rfl
@[simp] theorem State.ack_rnd (s : State) : s.ack.rnd = s.rnd := by
  unfold State.ack; split <;> rfl
@[simp] theorem State.ack_rndCount (s : State) : s.ack.rndCount = s.rndCount := by
  unfold State.ack; split <;> rfl
@[simp] theorem State.ack_ir (s : State) : s.ack.ir = s.ir := by
  unfold State.ack; split <;> rfl
@[simp] theorem State.ack_loaded (s : State) : s.ack.loaded = s.loaded := by
  unfold State.ack; split <;> rfl
@[simp] theorem State.ack_stepped (s : State) : s.ack.stepped = s.stepped := by
  unfold State.ack; split <;> rfl

@[simp] theorem State.ack_faultCode (s : State) : s.ack.faultCode = .none := by
  unfold State.ack
  split
  · assumption
  · rfl

/-! ## hostReset -/

@[simp] theorem State.hostReset_cfg (s : State) : s.hostReset.cfg = s.cfg := rfl
@[simp] theorem State.hostReset_v (s : State) : s.hostReset.v = (State.resetWith s.cfg).v := rfl
@[simp] theorem State.hostReset_pc (s : State) : s.hostReset.pc = (State.resetWith s.cfg).pc := rfl
@[simp] theorem State.hostReset_index (s : State) : s.hostReset.index = (State.resetWith s.cfg).index := rfl
@[simp] theorem State.hostReset_sp (s : State) : s.hostReset.sp = (State.resetWith s.cfg).sp := rfl
@[simp] theorem State.hostReset_stack (s : State) : s.hostReset.stack = (State.resetWith s.cfg).stack := rfl
@[simp] theorem State.hostReset_dt (s : State) : s.hostReset.dt = (State.resetWith s.cfg).dt := rfl
@[simp] theorem State.hostReset_st (s : State) : s.hostReset.st = (State.resetWith s.cfg).st := rfl
@[simp] theorem State.hostReset_mem (s : State) : s.hostReset.mem = (State.resetWith s.cfg).mem := rfl
@[simp] theorem State.hostReset_fb (s : State) : s.hostReset.fb = (State.resetWith s.cfg).fb := rfl
@[simp] theorem State.hostReset_keys (s : State) : s.hostReset.keys = s.keys := rfl
@[simp] theorem State.hostReset_rnd (s : State) : s.hostReset.rnd = s.rnd := rfl
@[simp] theorem State.hostReset_rndCount (s : State) : s.hostReset.rndCount = s.rndCount := rfl
@[simp] theorem State.hostReset_ir (s : State) : s.hostReset.ir = (State.resetWith s.cfg).ir := rfl
@[simp] theorem State.hostReset_faultCode (s : State) : s.hostReset.faultCode = (State.resetWith s.cfg).faultCode := rfl
@[simp] theorem State.hostReset_faultPc (s : State) : s.hostReset.faultPc = (State.resetWith s.cfg).faultPc := rfl
@[simp] theorem State.hostReset_faultIr (s : State) : s.hostReset.faultIr = (State.resetWith s.cfg).faultIr := rfl
@[simp] theorem State.hostReset_loaded (s : State) : s.hostReset.loaded = (State.resetWith s.cfg).loaded := rfl
@[simp] theorem State.hostReset_stepped (s : State) : s.hostReset.stepped = (State.resetWith s.cfg).stepped := rfl

end Sys2Proof.Machine
end

