-- ==== Sys2Proof/Laws/Regs.lean ====
section
/-! SUPPORT. Reading registers after each operation that writes them, and the stack's push and pop. -/

namespace Sys2Proof.Machine

theorem Reg.toNat_inj {x y : Reg} : x.toNat = y.toNat ↔ x = y := BitVec.toNat_inj

/-- A read depends on the register file alone. -/
theorem State.reg_congr {s t : State} (h : t.v = s.v) (x : Reg) : t.reg x = s.reg x := by
  simp only [State.reg, h]

theorem State.reg_setReg (s : State) (x y : Reg) (b : Byte) :
    (s.setReg x b).reg y = if x = y then b else s.reg y := by
  simp only [State.reg, State.setReg, Vector.getElem_set, Reg.toNat_inj]

@[simp] theorem State.reg_setReg_self (s : State) (x : Reg) (b : Byte) : (s.setReg x b).reg x = b := by
  simp [State.reg_setReg]

theorem State.reg_setReg_ne (s : State) {x y : Reg} (b : Byte) (h : x ≠ y) : (s.setReg x b).reg y = s.reg y := by
  simp [State.reg_setReg, h]

@[simp] theorem State.reg_setPc (s : State) (w : Word) (x : Reg) : (s.setPc w).reg x = s.reg x := rfl

@[simp] theorem State.reg_advance (s : State) (x : Reg) : s.advance.reg x = s.reg x := rfl

@[simp] theorem State.reg_skipIf (s : State) (c : Bool) (x : Reg) : (s.skipIf c).reg x = s.reg x := by
  cases c <;> rfl

@[simp] theorem State.reg_takeFault (s : State) (c : FaultCode) (x : Reg) : (s.takeFault c).reg x = s.reg x := rfl

@[simp] theorem State.reg_complete (s : State) (w : Word) (x : Reg) : (s.complete w).reg x = s.reg x := rfl

@[simp] theorem State.reg_markStepped (s : State) (x : Reg) : s.markStepped.reg x = s.reg x := rfl

/-- R600: the flag is what VF holds after a result-and-flag write, whatever the destination. -/
@[simp] theorem State.setResultFlag_flag (s : State) (x : Reg) (r f : Byte) :
    (s.setResultFlag x r f).reg flagReg = f := by
  simp [State.setResultFlag]

theorem State.setResultFlag_dest (s : State) {x : Reg} (r f : Byte) (h : x ≠ flagReg) :
    (s.setResultFlag x r f).reg x = r := by
  rw [State.setResultFlag, State.reg_setReg_ne _ _ h.symm, State.reg_setReg_self]

theorem State.setResultFlag_other (s : State) {x y : Reg} (r f : Byte) (hx : y ≠ x) (hf : y ≠ flagReg) :
    (s.setResultFlag x r f).reg y = s.reg y := by
  rw [State.setResultFlag, State.reg_setReg_ne _ _ hf.symm, State.reg_setReg_ne _ _ hx.symm]

/-- R604 in one line: V[x] holds the result unless x = F under the policy, VF is cleared under the policy only. -/
theorem State.reg_setLogic (s : State) (x y : Reg) (r : Byte) :
    (s.setLogic x r).reg y =
      if s.cfg.logicVfReset = true ∧ y = flagReg then 0 else if y = x then r else s.reg y := by
  unfold State.setLogic State.setResultFlag
  split <;> simp_all only [State.reg_setReg, true_and, false_and, if_false, Bool.false_eq_true,
    @eq_comm _ flagReg y, @eq_comm _ x y]

/-! ## Register blocks -/

/-- Writing registers from a list changes the register file alone. -/
theorem State.setRegs_eq (s : State) (k : Nat) (bs : List Byte) :
    s.setRegs k bs = { s with v := (s.setRegs k bs).v } := by
  induction bs generalizing s k with
  | nil => rfl
  | cons b bs ih => rw [State.setRegs, ih]; rfl

/-- Reading a register after a block write that starts at V[k] and ends by V[15]. -/
theorem State.reg_setRegs (s : State) (k : Nat) (bs : List Byte) (y : Reg) (h : k + bs.length ≤ 16) :
    (s.setRegs k bs).reg y =
      if k ≤ y.toNat ∧ y.toNat < k + bs.length then bs.getD (y.toNat - k) 0 else s.reg y := by
  induction bs generalizing s k with
  | nil => simp [State.setRegs]
  | cons b bs ih =>
    simp only [List.length_cons] at h
    rw [State.setRegs, ih _ _ (by omega), State.reg_setReg]
    have hk : BitVec.ofNat 4 k = y ↔ k = y.toNat := by
      rw [← BitVec.toNat_inj, BitVec.toNat_ofNat, Nat.mod_eq_of_lt (by omega)]
    simp only [hk, List.length_cons]
    by_cases h1 : k = y.toNat
    · subst h1; simp
    · by_cases h2 : k + 1 ≤ y.toNat ∧ y.toNat < k + 1 + bs.length
      · have : y.toNat - k = (y.toNat - (k + 1)) + 1 := by omega
        rw [if_pos h2, if_pos (by omega), this, List.getD_cons_succ]
      · rw [if_neg h2, if_neg h1, if_neg (by omega)]

@[simp] theorem State.regList_length (s : State) (n : Nat) : (s.regList n).length = n := by
  simp [State.regList]

theorem State.regList_getD (s : State) (n k : Nat) (h : k < n) :
    (s.regList n).getD k 0 = s.reg (BitVec.ofNat 4 k) := by
  simp [State.regList, h]

/-! ## Stack -/

/-- A slot depends on the stack alone. -/
theorem State.slot_congr {s t : State} (h : t.stack = s.stack) (k : Fin 16) : t.slot k = s.slot k := by
  simp only [State.slot, h]

/-- Push fails exactly on a full stack. -/
theorem State.push_full (s : State) (w : Word) (h : s.sp.val = 16) : s.push w = none := by
  simp [State.push, h]

/-- Push on a stack with room: the slot SP names gets the word and SP goes up by one. -/
theorem State.push_room (s : State) (w : Word) (h : s.sp.val < 16) :
    ∃ t, s.push w = some t ∧ t = { s with stack := t.stack, sp := t.sp } ∧ t.sp.val = s.sp.val + 1 ∧
      ∀ k : Fin 16, t.slot k = if k.val = s.sp.val then w else s.slot k := by
  refine ⟨{ s with stack := s.stack.set s.sp.val w h, sp := ⟨s.sp.val + 1, by omega⟩ }, ?_, rfl, rfl, ?_⟩
  · simp only [State.push, dif_pos h]
  · intro k
    simp only [State.slot, Fin.getElem_fin, Vector.getElem_set, eq_comm]

/-- Pop fails exactly on an empty stack. -/
theorem State.pop_empty (s : State) (h : s.sp.val = 0) : s.pop = none := by
  simp [State.pop, h]

/-- Pop on a stack with an entry: SP goes down by one, the top slot's word comes out, and no slot changes (R111). -/
theorem State.pop_entry (s : State) (k : Fin 16) (h : s.sp.val = k.val + 1) :
    ∃ t, s.pop = some (s.slot k, t) ∧ t = { s with sp := t.sp } ∧ t.sp.val = k.val := by
  have hk : (⟨s.sp.val - 1, by omega⟩ : Fin 16) = k := Fin.ext (by simp [h])
  refine ⟨{ s with sp := ⟨s.sp.val - 1, by omega⟩ }, ?_, rfl, by simp [h]⟩
  simp only [State.pop, dif_pos (show 0 < s.sp.val by omega), hk]

end Sys2Proof.Machine
end

