-- ==== Sys2Proof/Laws/Memory.lean ====
section
/-! SUPPORT. The laws of memory: a read after a write, the canonical form kept by every operation, and the block
accesses of spec/20_memory.md R204 and R206. -/

namespace Sys2Proof.Machine

variable {c : Config} {m : Memory}

theorem Memory.read_put (a b : Nat) (x : Byte) : Memory.read c (Memory.put a x m) b = if a = b then x else Memory.read c m b := by
  induction m with
  | nil => simp [Memory.put, Memory.read]
  | cons e m ih =>
    obtain ⟨k, y⟩ := e
    simp only [Memory.put]
    split
    · simp [Memory.read]
    · split
      · subst_vars; simp only [Memory.read]; split <;> simp_all
      · simp only [Memory.read, ih]; split <;> simp_all

theorem Memory.read_unlisted (a : Nat) (h : ∀ e ∈ m, e.1 ≠ a) : Memory.read c m a = resetByte c a := by
  induction m with
  | nil => rfl
  | cons e m ih =>
    obtain ⟨k, y⟩ := e
    rw [Memory.read, if_neg (h (k, y) List.mem_cons_self), ih fun e he => h e (by simp [he])]

theorem Memory.read_drop (a b : Nat) :
    Memory.read c (Memory.drop a m) b = if a = b then resetByte c b else Memory.read c m b := by
  by_cases hab : a = b
  · subst hab
    rw [if_pos rfl]
    exact Memory.read_unlisted _ fun e he => by simpa [Memory.drop] using (List.mem_filter.mp he).2
  · rw [if_neg hab]
    induction m with
    | nil => rfl
    | cons e m ih =>
      obtain ⟨k, y⟩ := e
      simp only [Memory.drop, List.filter_cons] at ih ⊢
      by_cases hk : k = a
      · subst hk; simp only [bne_self_eq_false, Bool.false_eq_true, if_false, ih, Memory.read, hab]
      · simp only [bne_iff_ne, ne_eq, hk, not_false_iff, if_true, Memory.read, ih]

/-- A read after a write: the byte written at the address written, the old byte elsewhere (R210). -/
theorem Memory.read_write (a b : Nat) (x : Byte) :
    Memory.read c (Memory.write c m a x) b = if a = b then x else Memory.read c m b := by
  unfold Memory.write
  split
  · rw [Memory.read_drop]; split <;> simp_all
  · rw [Memory.read_put]

theorem Memory.mem_put {a : Nat} {x : Byte} {e : Host.Cell} (h : e ∈ Memory.put a x m) : e = (a, x) ∨ e ∈ m := by
  induction m with
  | nil => simpa [Memory.put] using h
  | cons f m ih =>
    obtain ⟨k, y⟩ := f
    simp only [Memory.put] at h
    split at h
    · simpa using h
    · split at h
      · rcases List.mem_cons.mp h with h | h
        · exact .inl h
        · exact .inr (List.mem_cons_of_mem _ h)
      · rcases List.mem_cons.mp h with h | h
        · exact .inr (h ▸ List.mem_cons_self)
        · exact (ih h).imp id (List.mem_cons_of_mem _)

theorem Memory.put_rising {a : Nat} {x : Byte} (h : m.Pairwise fun e f : Host.Cell => e.1 < f.1) :
    (Memory.put a x m).Pairwise fun e f : Host.Cell => e.1 < f.1 := by
  induction m with
  | nil => simp [Memory.put]
  | cons f m ih =>
    obtain ⟨k, y⟩ := f
    obtain ⟨hk, hm⟩ := List.pairwise_cons.mp h
    simp only [Memory.put]
    split
    · rename_i hlt
      refine List.pairwise_cons.mpr ⟨fun e he => ?_, h⟩
      rcases List.mem_cons.mp he with he | he
      · rw [he]; exact hlt
      · exact Nat.lt_trans hlt (hk e he)
    · split
      · rename_i _ heq
        exact List.pairwise_cons.mpr ⟨fun e he => heq ▸ hk e he, hm⟩
      · refine List.pairwise_cons.mpr ⟨fun e he => ?_, ih hm⟩
        rcases Memory.mem_put he with he | he
        · rw [he]; show k < a; omega
        · exact hk e he

theorem Memory.wf_put {a : Nat} {x : Byte} (h : Memory.wf c m) (ha : a < 4096) (hx : x ≠ resetByte c a) :
    Memory.wf c (Memory.put a x m) :=
  ⟨Memory.put_rising h.1, fun e he => (Memory.mem_put he).elim (fun q => q ▸ ⟨ha, hx⟩) (h.2 e)⟩

theorem Memory.wf_drop {a : Nat} (h : Memory.wf c m) : Memory.wf c (Memory.drop a m) :=
  ⟨h.1.sublist List.filter_sublist, fun e he => h.2 e (List.mem_filter.mp he).1⟩

/-- A write keeps the canonical form. -/
theorem Memory.wf_write {a : Nat} {x : Byte} (h : Memory.wf c m) (ha : a < 4096) : Memory.wf c (Memory.write c m a x) := by
  unfold Memory.write
  split
  · exact Memory.wf_drop h
  · exact Memory.wf_put h ha ‹_›

/-- A block write keeps the canonical form. -/
theorem Memory.wf_writeList {a : Nat} {bs : List Byte} (h : Memory.wf c m) (ha : a + bs.length ≤ 4096) :
    Memory.wf c (Memory.writeList c m a bs) := by
  induction bs generalizing m a with
  | nil => exact h
  | cons b bs ih =>
    simp only [List.length_cons] at ha
    exact ih (Memory.wf_write h (by omega)) (by omega)

/-- Memory after reset is in its canonical form. -/
theorem Memory.wf_reset (c : Config) : Memory.wf c (State.resetWith c).mem := by
  simp [Memory.wf, State.resetWith]

/-- Reading after a block write: the list's byte inside the block, the old byte outside. -/
theorem Memory.read_writeList (a b : Nat) (bs : List Byte) :
    Memory.read c (Memory.writeList c m a bs) b =
      if a ≤ b ∧ b < a + bs.length then bs.getD (b - a) 0 else Memory.read c m b := by
  induction bs generalizing m a with
  | nil => simp [Memory.writeList]
  | cons x bs ih =>
    rw [Memory.writeList, ih, Memory.read_write]
    simp only [List.length_cons]
    by_cases h1 : a = b
    · subst h1; simp
    · by_cases h2 : a + 1 ≤ b ∧ b < a + 1 + bs.length
      · have : b - a = (b - (a + 1)) + 1 := by omega
        rw [if_pos h2, if_pos (by omega), this, List.getD_cons_succ]
      · rw [if_neg h2, if_neg h1, if_neg (by omega)]

/-! ## The access primitives on a state -/

/-- A read depends on the memory and the parameters alone. -/
theorem State.memRead_congr {s t : State} (hm : t.mem = s.mem) (hc : t.cfg = s.cfg) (a : Nat) :
    t.memRead a = s.memRead a := by
  simp only [State.memRead, hm, hc]

theorem State.memRead_ok (s : State) {a : Nat} (h : a ≤ 0xFFF) : s.memRead a = .ok (Memory.read s.cfg s.mem a) := by
  simp [State.memRead, h]

/-- check_block in plain arithmetic (R206). -/
theorem State.blockOut_iff (s : State) (len : Nat) :
    s.blockOut len = true ↔ 0 < len ∧ 0xFFF < s.index.toNat + len - 1 := by
  simp [State.blockOut]

/-- A block read inside memory answers the block's bytes. -/
theorem State.loadBlock_ok (s : State) (a n : Nat) (h : n = 0 ∨ a + n - 1 ≤ 0xFFF) :
    s.loadBlock a n = .ok ((List.range n).map fun k => Memory.read s.cfg s.mem (a + k)) := by
  induction n generalizing a with
  | zero => rfl
  | succ n ih =>
    simp only [State.loadBlock, s.memRead_ok (show a ≤ 0xFFF by omega), ih (a + 1) (by omega), List.range_succ_eq_map,
      List.map_cons, List.map_map, Nat.add_zero]
    congr 2
    exact List.map_congr_left fun k _ => by simp only [Function.comp_apply, Nat.succ_eq_add_one]; congr 1; omega

/-- A block write inside memory writes the list's bytes and nothing else. -/
theorem State.storeBlock_ok (s : State) (a : Nat) (bs : List Byte) (h : bs = [] ∨ a + bs.length - 1 ≤ 0xFFF) :
    s.storeBlock a bs = .ok { s with mem := Memory.writeList s.cfg s.mem a bs } := by
  induction bs generalizing s a with
  | nil => rfl
  | cons b bs ih =>
    have h' : a + bs.length ≤ 0xFFF := by simpa using h
    simp only [State.storeBlock, State.memWrite, if_pos (show a ≤ 0xFFF by omega)]
    rw [ih _ (a + 1) (by rcases bs with _ | ⟨x, xs⟩ <;> simp_all; omega)]
    rfl

/-- The write primitives on a state keep the canonical form, wherever they answer. -/
theorem State.memWrite_wf {s t : State} {a : Nat} {b : Byte} (h : Memory.wf s.cfg s.mem) (ht : s.memWrite a b = .ok t) :
    Memory.wf t.cfg t.mem := by
  simp only [State.memWrite] at ht
  split at ht
  · cases ht; exact Memory.wf_write h (by omega)
  · cases ht

theorem State.storeBlock_wf {s t : State} {a : Nat} {bs : List Byte} (h : Memory.wf s.cfg s.mem)
    (ht : s.storeBlock a bs = .ok t) : Memory.wf t.cfg t.mem := by
  induction bs generalizing s a with
  | nil => cases ht; exact h
  | cons b bs ih =>
    simp only [State.storeBlock] at ht
    split at ht
    · cases ht
    · exact ih (State.memWrite_wf h ‹_›) ht

/-- The fetch inside memory answers the two bytes at PC, big-endian (R203). -/
theorem State.fetchWord_ok (s : State) (h : s.fetchOut = false) :
    s.fetchWord = .ok (wordOfBytes (Memory.read s.cfg s.mem s.pc.toNat) (Memory.read s.cfg s.mem (s.pc.toNat + 1))) := by
  have h' : s.pc.toNat ≤ 0xFFE := by simpa [State.fetchOut] using h
  simp only [State.fetchWord, s.memRead_ok (show s.pc.toNat ≤ 0xFFF by omega),
    s.memRead_ok (show s.pc.toNat + 1 ≤ 0xFFF by omega)]

/-- The fetched word depends on PC, the memory and the parameters alone. -/
theorem State.fetchWord_congr {s t : State} (hp : t.pc = s.pc) (hm : t.mem = s.mem) (hc : t.cfg = s.cfg) :
    t.fetchWord = s.fetchWord := by
  simp only [State.fetchWord, State.memRead_congr hm hc, hp]

end Sys2Proof.Machine
end

