-- ==== Sys2Proof/Laws/Exec.lean ====
section
/-! SUPPORT. The meanings with a fault condition, each in its two cases, with the access primitives' own stops gone: a
checked block is inside memory (R206). And what one Step does, in its three cases. -/

namespace Sys2Proof.Machine

/-- A block that passes the check is empty or ends inside memory. -/
theorem State.blockIn (s : State) {len : Nat} (h : s.blockOut len = false) :
    len = 0 ∨ s.index.toNat + len - 1 ≤ 0xFFF := by
  have := (not_congr (s.blockOut_iff len)).mp (by simp [h])
  omega

/-- The bytes a block read answers. -/
def State.blockBytes (s : State) (len : Nat) : List Byte :=
  (List.range len).map fun k => Memory.read s.cfg s.mem (s.index.toNat + k)

@[simp] theorem State.blockBytes_length (s : State) (len : Nat) : (s.blockBytes len).length = len := by
  simp [State.blockBytes]

theorem State.blockBytes_getD (s : State) (len k : Nat) (h : k < len) :
    (s.blockBytes len).getD k 0 = Memory.read s.cfg s.mem (s.index.toNat + k) := by
  simp [State.blockBytes, h]

theorem execRet_empty (s : State) (h : s.sp.val = 0) : execRet s = .next (s.takeFault .stackUnderflow) := by
  rw [execRet, State.pop_empty _ (by simpa using h)]

theorem execRet_entry (s : State) (k : Fin 16) (h : s.sp.val = k.val + 1) :
    ∃ sp : Fin 17, sp.val = k.val ∧ execRet s = .next { s with sp := sp, pc := s.slot k } := by
  obtain ⟨t, h1, h2, h3⟩ := s.advance.pop_entry k (by simpa using h)
  refine ⟨t.sp, h3, ?_⟩
  rw [execRet, h1, h2]; rfl

theorem execCall_full (nnn : Addr12) (s : State) (h : s.sp.val = 16) :
    execCall nnn s = .next (s.takeFault .stackOverflow) := by
  rw [execCall, State.push_full _ _ (by simpa using h)]

theorem execCall_room (nnn : Addr12) (s : State) (h : s.sp.val < 16) :
    ∃ (stack : Vector Word 16) (sp : Fin 17), sp.val = s.sp.val + 1 ∧
      (∀ k : Fin 16, stack[k] = if k.val = s.sp.val then s.pc + 2 else s.slot k) ∧
      execCall nnn s = .next { s with stack := stack, sp := sp, pc := zext16 nnn } := by
  obtain ⟨t, h1, h2, h3, h4⟩ := s.advance.push_room s.advance.pc (by simpa using h)
  refine ⟨t.stack, t.sp, h3, h4, ?_⟩
  rw [execCall, h1, h2]; rfl

theorem execDrw_out (x y : Reg) (n : Nibble) (s : State) (h : s.blockOut n.toNat = true) :
    execDrw x y n s = .next (s.takeFault .memRange) := by
  rw [execDrw, if_pos h]

theorem execDrw_in (x y : Reg) (n : Nibble) (s : State) (h : s.blockOut n.toNat = false) :
    execDrw x y n s =
      .next ({ s.advance with
          fb := (drawRows s.cfg.drawEdge (s.spriteX x) (s.spriteY y) (s.blockBytes n.toNat) (s.fb, false)).1 }.setReg flagReg
        (flagByte (drawRows s.cfg.drawEdge (s.spriteX x) (s.spriteY y) (s.blockBytes n.toNat) (s.fb, false)).2)) := by
  rw [execDrw, if_neg (by simp [h]), s.loadBlock_ok _ _ (s.blockIn h)]; rfl

theorem execLdB_out (x : Reg) (s : State) (h : s.blockOut 3 = true) : execLdB x s = .next (s.takeFault .memRange) := by
  rw [execLdB, if_pos h]

theorem execLdB_in (x : Reg) (s : State) (h : s.blockOut 3 = false) :
    execLdB x s =
      .next { s.advance with mem := Memory.writeList s.cfg s.mem s.index.toNat (bcdDigits (s.reg x)) } := by
  rw [execLdB, if_neg (by simp [h]), State.storeBlock_ok _ _ _ (.inr (by simpa [bcdDigits] using s.blockIn h))]; rfl

theorem execLdMemVx_out (x : Reg) (s : State) (h : s.blockOut (x.toNat + 1) = true) :
    execLdMemVx x s = .next (s.takeFault .memRange) := by
  rw [execLdMemVx, if_pos h]

theorem execLdMemVx_in (x : Reg) (s : State) (h : s.blockOut (x.toNat + 1) = false) :
    execLdMemVx x s =
      .next { s.advance with mem := Memory.writeList s.cfg s.mem s.index.toNat (s.regList (x.toNat + 1)) } := by
  rw [execLdMemVx, if_neg (by simp [h]), State.storeBlock_ok _ _ _ (.inr (by simpa using s.blockIn h))]; rfl

theorem execLdVxMem_out (x : Reg) (s : State) (h : s.blockOut (x.toNat + 1) = true) :
    execLdVxMem x s = .next (s.takeFault .memRange) := by
  rw [execLdVxMem, if_pos h]

theorem execLdVxMem_in (x : Reg) (s : State) (h : s.blockOut (x.toNat + 1) = false) :
    execLdVxMem x s = .next (s.advance.setRegs 0 (s.blockBytes (x.toNat + 1))) := by
  rw [execLdVxMem, if_neg (by simp [h]), s.loadBlock_ok _ _ (s.blockIn h)]; rfl

/-- Every instruction answers a next state in every state: a VM fault is one too (R1304). -/
theorem exec_next (i : Instr) (s : State) : ∃ t, exec i s = .next t := by
  cases i with
  | ret =>
    by_cases h : s.sp.val = 0
    · exact ⟨_, execRet_empty s h⟩
    · obtain ⟨sp, -, h⟩ := execRet_entry s ⟨s.sp.val - 1, by omega⟩ (by show s.sp.val = s.sp.val - 1 + 1; omega)
      exact ⟨_, h⟩
  | call nnn =>
    by_cases h : s.sp.val = 16
    · exact ⟨_, execCall_full nnn s h⟩
    · obtain ⟨_, _, -, -, h⟩ := execCall_room nnn s (by omega)
      exact ⟨_, h⟩
  | drw x y n =>
    cases h : s.blockOut n.toNat
    · exact ⟨_, execDrw_in x y n s h⟩
    · exact ⟨_, execDrw_out x y n s h⟩
  | ldB x =>
    cases h : s.blockOut 3
    · exact ⟨_, execLdB_in x s h⟩
    · exact ⟨_, execLdB_out x s h⟩
  | ldMemVx x =>
    cases h : s.blockOut (x.toNat + 1)
    · exact ⟨_, execLdMemVx_in x s h⟩
    · exact ⟨_, execLdMemVx_out x s h⟩
  | ldVxMem x =>
    cases h : s.blockOut (x.toNat + 1)
    · exact ⟨_, execLdVxMem_in x s h⟩
    · exact ⟨_, execLdVxMem_out x s h⟩
  | skp x => simp only [exec, execSkp]; split <;> exact ⟨_, rfl⟩
  | sknp x => simp only [exec, execSknp]; split <;> exact ⟨_, rfl⟩
  | ldVxK x => simp only [exec, execLdVxK]; split <;> exact ⟨_, rfl⟩
  | _ => exact ⟨_, rfl⟩

/-- Everything a Step can do: a latched fault leaves the state as it is; a PC out of range takes FETCH_RANGE; otherwise
the word at PC is decoded, executed and finished. -/
theorem step_cases {s t : State} (h : step s = .next t) :
    (s.latched = true ∧ t = s) ∨
    (s.latched = false ∧ s.fetchOut = true ∧ t = (s.takeFault .fetchRange).markStepped) ∨
    ∃ w u, s.latched = false ∧ s.fetchOut = false ∧ s.fetchWord = .ok w ∧ exec (decodeWord w) s = .next u ∧
      t = u.finish w := by
  unfold step at h
  cases hl : s.latched <;> simp only [hl, Bool.false_eq_true, if_false, if_true] at h
  · cases ho : s.fetchOut <;> simp only [ho, Bool.false_eq_true, if_false, if_true] at h
    · rw [s.fetchWord_ok ho] at h
      obtain ⟨u, hu⟩ := exec_next (decodeWord (wordOfBytes (Memory.read s.cfg s.mem s.pc.toNat)
        (Memory.read s.cfg s.mem (s.pc.toNat + 1)))) s
      simp only [hu, Host.Outcome.next.injEq] at h
      exact .inr (.inr ⟨_, u, rfl, rfl, s.fetchWord_ok ho, hu, h.symm⟩)
    · simp only [Host.Outcome.next.injEq] at h
      exact .inr (.inl ⟨rfl, rfl, h.symm⟩)
  · simp only [Host.Outcome.next.injEq] at h
    exact .inl ⟨rfl, h.symm⟩

/-- The Step of an unlatched machine with a word to fetch. -/
theorem step_runs {s : State} {w : Word} {u : State} (hl : s.latched = false) (ho : s.fetchOut = false)
    (hw : s.fetchWord = .ok w) (hu : exec (decodeWord w) s = .next u) : step s = .next (u.finish w) := by
  simp only [step, hl, ho, hw, hu, Bool.false_eq_true, if_false]

end Sys2Proof.Machine
end

