-- ==== Sys2Proof/Laws/Outcome.lean ====
section
/-! SUPPORT. Everything a meaning can answer: the rollback with the fault the instruction is due, or a state in which the
handler has touched only what it may. -/

namespace Sys2Proof.Machine

/-- The parts of the state that no handler touches while it completes: all but the registers, PC, I, the stack, the
timers, memory and the framebuffer. -/
def State.sameRest (s t : State) : Prop :=
  t.cfg = s.cfg ∧ t.keys = s.keys ∧ t.rnd = s.rnd ∧ t.rndCount = s.rndCount ∧ t.ir = s.ir ∧ t.faultCode = s.faultCode ∧
    t.faultPc = s.faultPc ∧ t.faultIr = s.faultIr ∧ t.loaded = s.loaded ∧ t.stepped = s.stepped

/-- What any meaning answers: Fault(c) for exactly the condition `handlerFault` names, and else a completed handler. -/
theorem exec_outcome {i : Instr} {s t : State} (h : exec i s = .next t) :
    (handlerFault s i ≠ .none ∧ t = s.takeFault (handlerFault s i)) ∨ (handlerFault s i = .none ∧ s.sameRest t) := by
  have hb : ∀ len, s.blockOut len = true ↔ 0 < len ∧ 0xFFF < s.index.toNat + len - 1 := s.blockOut_iff
  cases i with
  | ret =>
    by_cases hs : s.sp.val = 0
    · rw [exec, execRet_empty s hs] at h; cases h
      simp [handlerFault, hs]
    · obtain ⟨sp, -, h'⟩ := execRet_entry s ⟨s.sp.val - 1, by omega⟩ (by show s.sp.val = s.sp.val - 1 + 1; omega)
      rw [exec, h'] at h; cases h
      exact .inr ⟨by simp [handlerFault, hs], ⟨rfl, rfl, rfl, rfl, rfl, rfl, rfl, rfl, rfl, rfl⟩⟩
  | call nnn =>
    by_cases hs : s.sp.val = 16
    · rw [exec, execCall_full nnn s hs] at h; cases h
      simp [handlerFault, hs]
    · obtain ⟨_, _, -, -, h'⟩ := execCall_room nnn s (by omega)
      rw [exec, h'] at h; cases h
      exact .inr ⟨by simp [handlerFault, hs], ⟨rfl, rfl, rfl, rfl, rfl, rfl, rfl, rfl, rfl, rfl⟩⟩
  | drw x y n =>
    cases hx : s.blockOut n.toNat
    · rw [exec, execDrw_in x y n s hx] at h; cases h
      have := (not_congr (hb n.toNat)).mp (by simp [hx])
      exact .inr ⟨by simp only [handlerFault, if_neg this], ⟨rfl, rfl, rfl, rfl, rfl, rfl, rfl, rfl, rfl, rfl⟩⟩
    · rw [exec, execDrw_out x y n s hx] at h; cases h
      have := (hb _).mp hx
      simp only [handlerFault, if_pos this]; simp
  | ldB x =>
    cases hx : s.blockOut 3
    · rw [exec, execLdB_in x s hx] at h; cases h
      have := (not_congr (hb 3)).mp (by simp [hx])
      exact .inr ⟨by simp only [handlerFault]; rw [if_neg (by omega)], ⟨rfl, rfl, rfl, rfl, rfl, rfl, rfl, rfl, rfl, rfl⟩⟩
    · rw [exec, execLdB_out x s hx] at h; cases h
      have := (hb _).mp hx
      simp only [handlerFault]; rw [if_pos (by omega)]; simp
  | ldMemVx x =>
    cases hx : s.blockOut (x.toNat + 1)
    · rw [exec, execLdMemVx_in x s hx] at h; cases h
      have := (not_congr (hb (x.toNat+1))).mp (by simp [hx])
      exact .inr ⟨by simp only [handlerFault]; rw [if_neg (by omega)], ⟨rfl, rfl, rfl, rfl, rfl, rfl, rfl, rfl, rfl, rfl⟩⟩
    · rw [exec, execLdMemVx_out x s hx] at h; cases h
      have := (hb _).mp hx
      simp only [handlerFault]; rw [if_pos (by omega)]; simp
  | ldVxMem x =>
    cases hx : s.blockOut (x.toNat + 1)
    · rw [exec, execLdVxMem_in x s hx, State.setRegs_eq] at h; cases h
      have := (not_congr (hb (x.toNat+1))).mp (by simp [hx])
      exact .inr ⟨by simp only [handlerFault]; rw [if_neg (by omega)], ⟨rfl, rfl, rfl, rfl, rfl, rfl, rfl, rfl, rfl, rfl⟩⟩
    · rw [exec, execLdVxMem_out x s hx] at h; cases h
      have := (hb _).mp hx
      simp only [handlerFault]; rw [if_pos (by omega)]; simp
  | skp x =>
    by_cases hk : 15 < (s.reg x).toNat
    · simp only [exec, execSkp, State.keyOut, hk, decide_true, if_true] at h; cases h; simp [handlerFault, hk]
    · simp only [exec, execSkp, State.keyOut, hk, decide_false, Bool.false_eq_true, if_false] at h; cases h
      refine .inr ⟨by simp [handlerFault, hk], ?_⟩
      simp [State.sameRest]
  | sknp x =>
    by_cases hk : 15 < (s.reg x).toNat
    · simp only [exec, execSknp, State.keyOut, hk, decide_true, if_true] at h; cases h; simp [handlerFault, hk]
    · simp only [exec, execSknp, State.keyOut, hk, decide_false, Bool.false_eq_true, if_false] at h; cases h
      refine .inr ⟨by simp [handlerFault, hk], ?_⟩
      simp [State.sameRest]
  | ldVxK x =>
    simp only [exec, execLdVxK] at h
    split at h <;> cases h <;> exact .inr ⟨rfl, by simp [State.sameRest]⟩
  | _ => cases h; exact .inr ⟨rfl, by simp [State.sameRest]⟩

end Sys2Proof.Machine
end

