-- ==== Sys2Proof/Laws/PerInstr.lean ====
section
/-! SUPPORT. Per instruction: the word the encoder gives it is one its own row of the opcode table selects. -/

namespace Sys2Proof.Laws.EncodesInRow

/-- The encoded word of a well-formed instruction is selected by the instruction's row of opcode_table.json. -/
def Statement (i : Instr) : Prop :=
  i.wellFormed = true → ∃ r, opcodeRows[i.row]? = some r ∧ r.selects (encode i) = true

/-- A row that is no default row selects every word its pattern matches. -/
theorem plain_row {i : Instr} (mask pat : Word) (hr : opcodeRows[i.row]? = some ⟨mask, pat, false⟩)
    (h : encode i &&& mask = pat) : Statement i :=
  fun _ => ⟨_, hr, by simp [OpcodeRow.selects, OpcodeRow.hits, h]⟩

theorem cls : Statement .cls := by unfold Statement; decide
theorem ret : Statement .ret := by unfold Statement; decide
theorem nop0 (sub : Nibble) : Statement (.nop0 sub) := by unfold Statement; revert sub; decide
theorem nop8 (sub : Nibble) : Statement (.nop8 sub) := by unfold Statement; revert sub; decide
theorem nopE (sub : Nibble) : Statement (.nopE sub) := by unfold Statement; revert sub; decide

theorem jp (nnn : Addr12) : Statement (.jp nnn) := plain_row _ _ rfl (wordNNN_mask_F000 ..)
theorem call (nnn : Addr12) : Statement (.call nnn) := plain_row _ _ rfl (wordNNN_mask_F000 ..)
theorem seImm (x : Reg) (nn : Byte) : Statement (.seImm x nn) := plain_row _ _ rfl (wordXNN_mask_F000 ..)
theorem sneImm (x : Reg) (nn : Byte) : Statement (.sneImm x nn) := plain_row _ _ rfl (wordXNN_mask_F000 ..)
theorem seReg (x : Reg) (y : Reg) : Statement (.seReg x y) := plain_row _ _ rfl (word4_mask_F000 ..)
theorem ldImm (x : Reg) (nn : Byte) : Statement (.ldImm x nn) := plain_row _ _ rfl (wordXNN_mask_F000 ..)
theorem addImm (x : Reg) (nn : Byte) : Statement (.addImm x nn) := plain_row _ _ rfl (wordXNN_mask_F000 ..)
theorem ldReg (x : Reg) (y : Reg) : Statement (.ldReg x y) := plain_row _ _ rfl (word4_mask_F00F ..)
theorem orReg (x : Reg) (y : Reg) : Statement (.orReg x y) := plain_row _ _ rfl (word4_mask_F00F ..)
theorem andReg (x : Reg) (y : Reg) : Statement (.andReg x y) := plain_row _ _ rfl (word4_mask_F00F ..)
theorem xorReg (x : Reg) (y : Reg) : Statement (.xorReg x y) := plain_row _ _ rfl (word4_mask_F00F ..)
theorem addReg (x : Reg) (y : Reg) : Statement (.addReg x y) := plain_row _ _ rfl (word4_mask_F00F ..)
theorem subReg (x : Reg) (y : Reg) : Statement (.subReg x y) := plain_row _ _ rfl (word4_mask_F00F ..)
theorem shr (x : Reg) (y : Reg) : Statement (.shr x y) := plain_row _ _ rfl (word4_mask_F00F ..)
theorem subn (x : Reg) (y : Reg) : Statement (.subn x y) := plain_row _ _ rfl (word4_mask_F00F ..)
theorem shl (x : Reg) (y : Reg) : Statement (.shl x y) := plain_row _ _ rfl (word4_mask_F00F ..)
theorem sneReg (x : Reg) (y : Reg) : Statement (.sneReg x y) := plain_row _ _ rfl (word4_mask_F000 ..)
theorem ldI (nnn : Addr12) : Statement (.ldI nnn) := plain_row _ _ rfl (wordNNN_mask_F000 ..)
theorem jpV0 (nnn : Addr12) : Statement (.jpV0 nnn) := plain_row _ _ rfl (wordNNN_mask_F000 ..)
theorem rnd (x : Reg) (nn : Byte) : Statement (.rnd x nn) := plain_row _ _ rfl (wordXNN_mask_F000 ..)
theorem drw (x : Reg) (y : Reg) (n : Nibble) : Statement (.drw x y n) := plain_row _ _ rfl (word4_mask_F000 ..)
theorem skp (x : Reg) : Statement (.skp x) := plain_row _ _ rfl (wordXNN_mask_F00F ..)
theorem sknp (x : Reg) : Statement (.sknp x) := plain_row _ _ rfl (wordXNN_mask_F00F ..)
theorem ldVxDt (x : Reg) : Statement (.ldVxDt x) := plain_row _ _ rfl (wordXNN_mask_F0FF ..)
theorem ldVxK (x : Reg) : Statement (.ldVxK x) := plain_row _ _ rfl (wordXNN_mask_F0FF ..)
theorem ldDtVx (x : Reg) : Statement (.ldDtVx x) := plain_row _ _ rfl (wordXNN_mask_F0FF ..)
theorem ldStVx (x : Reg) : Statement (.ldStVx x) := plain_row _ _ rfl (wordXNN_mask_F0FF ..)
theorem addI (x : Reg) : Statement (.addI x) := plain_row _ _ rfl (wordXNN_mask_F0FF ..)
theorem ldF (x : Reg) : Statement (.ldF x) := plain_row _ _ rfl (wordXNN_mask_F0FF ..)
theorem ldB (x : Reg) : Statement (.ldB x) := plain_row _ _ rfl (wordXNN_mask_F0FF ..)
theorem ldMemVx (x : Reg) : Statement (.ldMemVx x) := plain_row _ _ rfl (wordXNN_mask_F0FF ..)
theorem ldVxMem (x : Reg) : Statement (.ldVxMem x) := plain_row _ _ rfl (wordXNN_mask_F0FF ..)

theorem nopF (sub : Byte) : Statement (.nopF sub) := by unfold Statement; revert sub; decide

end Sys2Proof.Laws.EncodesInRow
end

