-- ==== Sys2Proof/Tests/Slice0.lean ====
section
/-! SUPPORT. The model's own tests. A test's expected result is the spec's: the vectors of spec/95_test_vectors.md are
named by their ids, the rest by their rules. A theorem `meets_<statement>` shows a concrete case of every hypothesis of
that statement. -/

namespace Sys2Proof.Tests

open Sys2Proof.Machine

/-! ## Helpers -/

/-- The reset state with some registers set. -/
def start (regs : List (Reg × Byte)) : State := regs.foldl (fun s r => s.setReg r.1 r.2) State.reset

/-- `s` with some bytes of memory set. -/
def State.poke (s : State) (a : Nat) (bytes : List Byte) : State :=
  { s with mem := Memory.writeList s.cfg s.mem a bytes }

/-- `s` with one pixel flipped. -/
def State.dot (s : State) (x y : Nat) : State := { s with fb := flipPixel s.fb x y }

/-- The state an outcome answers. -/
def stateOf : Result → Option State
  | .next t => some t
  | .fault _ => none
  | .refused _ => none

/-- The state after one Step that runs the word w. -/
def after (w : Word) (s : State) : Option State := stateOf (step (s.placeWord w))

/-- An outcome that the kernel finds to be a next state with a property is one. -/
theorem answers (r : Result) (p : State → Prop) [DecidablePred p] (h : (stateOf r).any (fun t => decide (p t)) = true) :
    ∃ t, r = .next t ∧ p t := by
  cases r with
  | next t => exact ⟨t, rfl, by simpa [stateOf] using h⟩
  | fault _ => simp [stateOf] at h
  | refused _ => simp [stateOf] at h

/-! ## WellFormed: an ill-formed term for each check, and a well-formed one -/

theorem test_wf_refuses_nop0 : ∀ k ∈ [0x0#4, 0xE#4], (Instr.nop0 k).wellFormed = false := by decide
theorem test_wf_refuses_nop8 :
    ∀ k ∈ [0x0#4, 0x1#4, 0x2#4, 0x3#4, 0x4#4, 0x5#4, 0x6#4, 0x7#4, 0xE#4], (Instr.nop8 k).wellFormed = false := by decide
theorem test_wf_refuses_nopE : ∀ k ∈ [0x1#4, 0xE#4], (Instr.nopE k).wellFormed = false := by decide
theorem test_wf_refuses_nopF :
    ∀ k ∈ [0x07#8, 0x0A#8, 0x15#8, 0x18#8, 0x1E#8, 0x29#8, 0x33#8, 0x55#8, 0x65#8], (Instr.nopF k).wellFormed = false := by
  decide
theorem test_wf_accepts : (Instr.nop0 0x1).wellFormed = true ∧ (Instr.nop8 0x8).wellFormed = true ∧
    (Instr.nopE 0xF).wellFormed = true ∧ (Instr.nopF 0x00).wellFormed = true ∧ (Instr.drw 0xF 0xF 0xF).wellFormed = true := by
  decide

/-! ## Decoding: a word written out bit by bit from the formats of spec/30_encoding.md for every constructor -/

-- op = 0000, two ignored nibbles, key = w[3:0] (R307).
theorem test_decode_family0 : decodeWord 0b0000000011100000 = .cls ∧ decodeWord 0b0000000011101110 = .ret ∧
    decodeWord 0b0000101010110101 = .nop0 0x5 := by decide
-- op = 0001, 0010, 1010, 1011, then NNN in w[11:0] (R301, R306).
theorem test_decode_nnn : decodeWord 0b0001001000110100 = .jp 0x234 ∧ decodeWord 0b0010100000000001 = .call 0x801 ∧
    decodeWord 0b1010001100000000 = .ldI 0x300 ∧ decodeWord 0b1011111111111110 = .jpV0 0xFFE := by decide
-- op = 0011, 0100, 0110, 0111, 1100, then X in w[11:8] and NN in w[7:0] (R301, R306).
theorem test_decode_xnn : decodeWord 0b0011001101000010 = .seImm 0x3 0x42 ∧
    decodeWord 0b0100100000000001 = .sneImm 0x8 0x01 ∧ decodeWord 0b0110101000000010 = .ldImm 0xA 0x02 ∧
    decodeWord 0b0111101000000101 = .addImm 0xA 0x05 ∧ decodeWord 0b1100001100001111 = .rnd 0x3 0x0F := by decide
-- op = 0101 and 1001, X in w[11:8], Y in w[7:4], w[3:0] ignored (R302, R305).
theorem test_decode_skips : decodeWord 0b0101000100100111 = .seReg 0x1 0x2 ∧
    decodeWord 0b1001100001001111 = .sneReg 0x8 0x4 := by decide
-- op = 1000, X in w[11:8], Y in w[7:4], key = w[3:0] (R308).
theorem test_decode_family8 : decodeWord 0b1000000100100000 = .ldReg 0x1 0x2 ∧
    decodeWord 0b1000000100100001 = .orReg 0x1 0x2 ∧ decodeWord 0b1000000100100010 = .andReg 0x1 0x2 ∧
    decodeWord 0b1000000100100011 = .xorReg 0x1 0x2 ∧ decodeWord 0b1000111111100100 = .addReg 0xF 0xE ∧
    decodeWord 0b1000000100100101 = .subReg 0x1 0x2 ∧ decodeWord 0b1000000100100110 = .shr 0x1 0x2 ∧
    decodeWord 0b1000000100100111 = .subn 0x1 0x2 ∧ decodeWord 0b1000000100101110 = .shl 0x1 0x2 ∧
    decodeWord 0b1000000100101000 = .nop8 0x8 := by decide
-- op = 1101, X in w[11:8], Y in w[7:4], N in w[3:0] (R306).
theorem test_decode_drw : decodeWord 0b1101000100100101 = .drw 0x1 0x2 0x5 := by decide
-- op = 1110, X in w[11:8], w[7:4] ignored, key = w[3:0] (R309, C2).
theorem test_decode_familyE : decodeWord 0b1110010010011110 = .skp 0x4 ∧ decodeWord 0b1110010010100001 = .sknp 0x4 ∧
    decodeWord 0b1110010000011110 = .skp 0x4 ∧ decodeWord 0b1110010010100010 = .nopE 0x2 := by decide
-- op = 1111, X in w[11:8], key = w[7:0] (R310).
theorem test_decode_familyF : decodeWord 0b1111101000000111 = .ldVxDt 0xA ∧ decodeWord 0b1111001100001010 = .ldVxK 0x3 ∧
    decodeWord 0b1111101000010101 = .ldDtVx 0xA ∧ decodeWord 0b1111000100011000 = .ldStVx 0x1 ∧
    decodeWord 0b1111001000011110 = .addI 0x2 ∧ decodeWord 0b1111000000101001 = .ldF 0x0 ∧
    decodeWord 0b1111101000110011 = .ldB 0xA ∧ decodeWord 0b1111001001010101 = .ldMemVx 0x2 ∧
    decodeWord 0b1111001001100101 = .ldVxMem 0x2 ∧ decodeWord 0b1111000011111111 = .nopF 0xFF := by decide

/-- The byte at the lower address is w[15:8] (R300), and a single byte is no instruction. -/
theorem test_decode_bytes : (match decode [0x6A, 0x02, 0x7A] with
    | .ok r => some r
    | .error _ => none) = some (.ldImm 0xA 0x02, [0x7A]) ∧ decode [0x6A] = .error .truncated := ⟨by decide, rfl⟩
/-- The assembler's words (R313; spec/30_encoding.md). -/
theorem test_encode_canonical : encode .cls = 0x00E0 ∧ encode (.skp 0x4) = 0xE49E ∧ encode (.sknp 0x4) = 0xE4A1 ∧
    encode (.seReg 0x1 0x2) = 0x5120 ∧ encode (.ldMemVx 0x2) = 0xF255 := by decide
theorem test_decode_table_word : decodeTableWord 16 0x7A05 = some (.addImm 0xA 0x05) ∧
    decodeTableWord 17 0x7A05 = none := by decide
theorem test_fetch_word_runs :
    (stateOf (step (State.reset.withFetchWord 16 0x6A02))).map (fun t => (t.reg 0xA, t.pc, t.ir)) =
      some (0x02, 0x202, 0x6A02) := by decide

/-! ## Reset, parameters and the host's operations -/

/-- R10, R1403 and vector L1. -/
theorem test_defaults : Config.default.fontBase.val = 0x050 ∧ Config.default.logicVfReset = false ∧
    Config.default.shiftSrc = .vx ∧ Config.default.drawEdge = .clip := by decide
theorem test_reset_font : State.reset.memRead 0x050 = .ok 0xF0 ∧ State.reset.memRead 0x09F = .ok 0x80 ∧
    State.reset.memRead 0x04F = .ok 0x00 ∧ State.reset.memRead 0x0A0 = .ok 0x00 ∧
    State.reset.memRead 0x1000 = .error (.noSuchAddress 0x1000) := ⟨rfl, rfl, rfl, rfl, rfl⟩
/-- DOC0 §8's scenario loads 6A02 7A05 at 0x200 (vector P1, its first Step). -/
theorem test_load_then_step :
    (stateOf (session [.load [0x6A, 0x02, 0x7A, 0x05], .step] State.reset)).map (fun t => (t.reg 0xA, t.pc, t.stepped)) =
      some (0x02, 0x202, true) := by decide
/-- Vector L4: a second LOAD after the STEP is refused. -/
theorem test_load_after_step : stateOf (session [.load [0x6A, 0x02], .step, .load [0x6A, 0x02]] State.reset) = none := by
  decide

/-! ## The Step and its faults -/

/-- Vector S7: a Step decrements a timer above 0 and leaves one at 0. -/
theorem test_step_ticks : (after 0x6000 { State.reset with dt := 1 }).map (fun t => (t.dt, t.st)) = some (0, 0) := by decide
/-- Vector S8: the fault record, and PC and the timers as they were. -/
theorem test_fault_rolls_back :
    (after 0x00EE { State.reset with dt := 5, st := 5 }).map (fun t => (t.status, t.pc, t.dt, t.st)) =
      some (.fault .stackUnderflow 0x200 0x00EE, 0x200, 5, 5) := by decide
/-- Vector S10. -/
theorem test_fetch_range :
    (stateOf (step { State.reset with pc := 0xFFF })).map (fun t => t.status) = some (.fault .fetchRange 0x0FFF 0x0000) := by
  decide
/-- Vector S11: the fetch at 0xFFE is legal. -/
theorem test_last_fetch : (after 0x3000 { State.reset with pc := 0xFFE }).map (fun t => (t.pc, t.status)) =
    some (0x1002, .ok) := by decide

/-! ## NOP and flow control (vectors S1 to S6 and F1 to F15) -/

theorem test_nop0 : (after 0x0001 State.reset).map (fun t => (t.pc, t.sp, t.status)) = some (0x202, 0, .ok) := by decide
theorem test_nop8 : (after 0x800F (start [(0, 9)])).map (fun t => (t.pc, t.v)) = some (0x202, (start [(0, 9)]).v) := by decide
theorem test_nopE : (after 0xE400 State.reset).map (fun t => (t.pc, t.status)) = some (0x202, .ok) := by decide
theorem test_nopF : (after 0xF0FF State.reset).map (fun t => (t.pc, t.status)) = some (0x202, .ok) := by decide
theorem test_cls : (after 0x0120 (State.dot State.reset 5 5)).map (fun t => (t.pixel 5 5, t.pc)) = some (false, 0x202) := by
  decide
theorem test_ret : (after 0x00EE { State.reset with sp := 1, stack := State.reset.stack.set 0 0x206 }).map
    (fun t => (t.pc, t.sp, t.slot 0)) = some (0x206, 0, 0x206) := by decide
theorem test_jp : (after 0x1234 { State.reset with pc := 0x800 }).map (fun t => t.pc) = some 0x234 := by decide
theorem test_call_sixteenth : (after 0x2210 { State.reset with sp := 15 }).map (fun t => (t.slot 15, t.sp, t.pc)) =
    some (0x202, 16, 0x210) := by decide
theorem test_call_overflow : (after 0x2210 { State.reset with sp := 16 }).map (fun t => (t.status, t.sp)) =
    some (.fault .stackOverflow 0x200 0x2210, 16) := by decide
theorem test_se_imm_skips : (after 0x3342 (start [(3, 0x42)])).map (fun t => t.pc) = some 0x204 := by decide
theorem test_se_imm_not : (after 0x3343 (start [(3, 0x42)])).map (fun t => t.pc) = some 0x202 := by decide
theorem test_sne_imm_skips : (after 0x4300 (start [(3, 0x42)])).map (fun t => t.pc) = some 0x204 := by decide
theorem test_sne_imm_not : (after 0x4342 (start [(3, 0x42)])).map (fun t => t.pc) = some 0x202 := by decide
theorem test_se_reg_skips : (after 0x5127 (start [(1, 7), (2, 7)])).map (fun t => t.pc) = some 0x204 := by decide
theorem test_sne_reg_skips : (after 0x9120 (start [(1, 7), (2, 8)])).map (fun t => t.pc) = some 0x204 := by decide
theorem test_sne_reg_not : (after 0x9110 (start [(1, 7)])).map (fun t => t.pc) = some 0x202 := by decide
theorem test_jp_v0 : (after 0xBFFF (start [(0, 0xFF)])).map (fun t => t.pc) = some 0x10FE := by decide

/-! ## Register operations (vectors A1 to A37) -/

theorem test_ld_imm : (after 0x6A02 State.reset).map (fun t => (t.reg 0xA, t.pc)) = some (0x02, 0x202) := by decide
theorem test_add_imm_no_flag : (after 0x7101 (start [(1, 0xFF), (0xF, 0x55)])).map (fun t => (t.reg 1, t.reg 0xF)) =
    some (0x00, 0x55) := by decide
theorem test_ld_reg : (after 0x8120 (start [(2, 0x33)])).map (fun t => (t.reg 1, t.reg 2)) = some (0x33, 0x33) := by decide
theorem test_or : (after 0x8121 (start [(1, 0xF0), (2, 0x0F), (0xF, 0x77)])).map (fun t => (t.reg 1, t.reg 0xF)) =
    some (0xFF, 0x77) := by decide
theorem test_or_reset_policy : (after 0x8121 { start [(1, 0xF0), (2, 0x0F), (0xF, 0x77)] with
    cfg := { Config.default with logicVfReset := true } }).map (fun t => (t.reg 1, t.reg 0xF)) = some (0xFF, 0x00) := by decide
theorem test_and : (after 0x8122 (start [(1, 0xF0), (2, 0x3C)])).map (fun t => t.reg 1) = some 0x30 := by decide
theorem test_xor : (after 0x8123 (start [(1, 0xFF), (2, 0x0F)])).map (fun t => t.reg 1) = some 0xF0 := by decide
theorem test_xor_vf_reset_policy : (after 0x8F23 { start [(0xF, 0xAB), (2, 0x0F)] with
    cfg := { Config.default with logicVfReset := true } }).map (fun t => t.reg 0xF) = some 0x00 := by decide
theorem test_add_carry : (after 0x8124 (start [(1, 0xFF), (2, 0x01)])).map (fun t => (t.reg 1, t.reg 0xF)) =
    some (0x00, 1) := by decide
theorem test_add_flag_last : (after 0x8FE4 (start [(0xF, 0x10), (0xE, 0x20)])).map (fun t => t.reg 0xF) = some 0 := by decide
theorem test_sub_borrow : (after 0x8125 (start [(1, 3), (2, 5)])).map (fun t => (t.reg 1, t.reg 0xF)) =
    some (0xFE, 0) := by decide
theorem test_sub_equal : (after 0x8125 (start [(1, 4), (2, 4)])).map (fun t => (t.reg 1, t.reg 0xF)) =
    some (0x00, 1) := by decide
theorem test_shr : (after 0x8106 (start [(1, 0x05)])).map (fun t => (t.reg 1, t.reg 0xF)) = some (0x02, 1) := by decide
theorem test_shr_vy : (after 0x8126 { start [(1, 0xFF), (2, 0x04)] with
    cfg := { Config.default with shiftSrc := .vy } }).map (fun t => (t.reg 1, t.reg 0xF, t.reg 2)) =
      some (0x02, 0, 0x04) := by decide
theorem test_subn : (after 0x8127 (start [(1, 3), (2, 5)])).map (fun t => (t.reg 1, t.reg 0xF)) = some (0x02, 1) := by decide
theorem test_subn_borrow : (after 0x8127 (start [(1, 5), (2, 3)])).map (fun t => (t.reg 1, t.reg 0xF)) =
    some (0xFE, 0) := by decide
theorem test_shl : (after 0x810E (start [(1, 0x81)])).map (fun t => (t.reg 1, t.reg 0xF)) = some (0x02, 1) := by decide
theorem test_shl_flag_last : (after 0x8F0E (start [(0xF, 0x40)])).map (fun t => t.reg 0xF) = some 0 := by decide

/-! ## Index register and random byte (vectors X1 to X10) -/

theorem test_ld_i : (after 0xA300 State.reset).map (fun t => t.index) = some 0x0300 := by decide
theorem test_add_i : (after 0xF21E { start [(2, 0x01)] with index := 0x0FFF }).map (fun t => (t.index, t.reg 0xF)) =
    some (0x1000, 0) := by decide
theorem test_add_i_wraps : (after 0xF21E { start [(2, 0x02)] with index := 0xFFFF }).map (fun t => t.index) =
    some 0x0001 := by decide
theorem test_ld_f : (after 0xF129 (start [(1, 0x1A)])).map (fun t => t.index) = some 0x0082 := by decide
theorem test_rnd : (after 0xC30F { State.reset with rnd := some 0xAB }).map (fun t => (t.reg 3, t.rnd)) =
    some (0x0B, none) := by decide
/-- With no byte on the port the result is the free value under the mask: the bits outside the mask are fixed. -/
theorem test_rnd_free : ((State.reset.rndByte &&& 0x0F) &&& 0xF0) = 0 := by
  rw [BitVec.and_assoc]; exact BitVec.and_zero

/-! ## Display (vectors D2, D3 and D7) -/

/-- R802's algorithm at the corner of the screen, under both policies. -/
theorem test_place_clip : place .clip 63 31 = some (63, 31) ∧ place .clip 64 31 = none ∧ place .clip 63 32 = none := by decide
theorem test_place_wrap : place .wrap 63 31 = some (63, 31) ∧ place .wrap 64 31 = some (0, 31) ∧
    place .wrap 63 32 = some (63, 0) ∧ place .wrap 70 46 = some (6, 14) := by decide

/-- Vectors D2 and D3: 8 pixels from column 62 on, first under CLIP and then under WRAP. -/
theorem test_drw_edges :
    (after 0xD011 { State.poke (start [(0, 62)]) 0x300 [0xFF] with index := 0x300 }).map
      (fun t => (t.pixel 62 0, t.pixel 63 0, t.pixel 0 0, t.pixel 5 0)) = some (true, true, false, false) ∧
    (after 0xD011 { State.poke { start [(0, 62)] with cfg := { Config.default with drawEdge := .wrap } } 0x300 [0xFF] with
      index := 0x300 }).map
      (fun t => (t.pixel 62 0, t.pixel 63 0, t.pixel 0 0, t.pixel 5 0, t.pixel 6 0)) =
        some (true, true, true, true, false) := by decide
theorem test_drw_collides : (after 0xD011 { State.dot (State.poke State.reset 0x300 [0xC0]) 0 0 with index := 0x300 }).map
    (fun t => (t.pixel 0 0, t.pixel 1 0, t.reg 0xF)) = some (false, true, 1) := by decide

/-! ## Input and timers (vectors K1 to K9 and T1 to T6) -/

theorem test_skp : (after 0xE49E { start [(4, 7)] with keys := 0x0080 }).map (fun t => t.pc) = some 0x204 := by decide
theorem test_skp_key_range : (after 0xE49E (start [(4, 16)])).map (fun t => t.status) =
    some (.fault .keyRange 0x200 0xE49E) := by decide
theorem test_sknp : (after 0xE4A1 (start [(4, 7)])).map (fun t => t.pc) = some 0x204 := by decide
theorem test_sknp_down : (after 0xE4A1 { start [(4, 7)] with keys := 0x0080 }).map (fun t => t.pc) = some 0x202 := by decide
theorem test_key_wait_takes : (after 0xF30A { State.reset with pc := 0x204, keys := 0x0280 }).map
    (fun t => (t.reg 3, t.pc)) = some (7, 0x206) := by decide
theorem test_key_wait_waits : (after 0xF30A { start [(3, 0x55)] with pc := 0x204, dt := 3 }).map
    (fun t => (t.reg 3, t.pc, t.dt)) = some (0x55, 0x204, 2) := by decide
theorem test_ld_vx_dt : (after 0xF307 { State.reset with dt := 0x10 }).map (fun t => (t.reg 3, t.dt)) =
    some (0x10, 0x0F) := by decide
theorem test_ld_dt : (after 0xFA15 (start [(0xA, 3)])).map (fun t => t.dt) = some 2 := by decide
theorem test_ld_st : (after 0xF118 (start [(1, 5)])).map (fun t => t.st) = some 4 := by decide

/-! ## Memory block transfer (vectors M4 to M13) -/

theorem test_bcd_at_the_top : (after 0xFA33 { start [(0xA, 255)] with index := 0xFFD }).map
    (fun t => (t.mem.filter fun e => decide (0xFFD ≤ e.1), t.index)) =
      some ([(0xFFD, 2), (0xFFE, 5), (0xFFF, 5)], 0xFFD) := by decide
theorem test_bcd_beyond : (after 0xFA33 { start [(0xA, 255)] with index := 0xFFE }).map
    (fun t => (t.status, t.mem.filter fun e => decide (0xFFD ≤ e.1))) = some (.fault .memRange 0x200 0xFA33, []) := by decide
theorem test_store_registers : (after 0xF255 { start [(0, 1), (1, 2), (2, 3), (3, 4)] with index := 0x400 }).map
    (fun t => (t.mem.filter fun e => decide (0x400 ≤ e.1), t.index)) =
      some ([(0x400, 1), (0x401, 2), (0x402, 3)], 0x400) := by decide
theorem test_store_beyond : (after 0xF255 { State.reset with index := 0xFFE }).map (fun t => t.status) =
    some (.fault .memRange 0x200 0xF255) := by decide
theorem test_load_registers : (after 0xF265 { State.poke (start [(3, 0x77)]) 0x300 [2, 5, 5] with index := 0x300 }).map
    (fun t => (t.reg 0, t.reg 1, t.reg 2, t.reg 3, t.index)) = some (2, 5, 5, 0x77, 0x300) := by decide
theorem test_load_beyond : (after 0xFF65 { State.reset with index := 0xFF1 }).map (fun t => t.status) =
    some (.fault .memRange 0x200 0xFF65) := by decide

/-! ## Every hypothesis is met

Of the theorems for one statement, each shows concrete values that meet all hypotheses of one clause together, at the ends
of their ranges. -/

/-- A machine that has just taken STACK_UNDERFLOW: 00EE at 0x200 with an empty stack. -/
def underflowed : State := ((State.reset.placeWord 0x00EE).takeFault .stackUnderflow).markStepped

theorem underflowed_step : step (State.reset.placeWord 0x00EE) = .next underflowed := rfl

theorem underflowed_again : step underflowed = .next underflowed := if_pos (by decide)

theorem underflowed_latched : underflowed.faultCode ≠ .none := by decide

theorem meets_DecodeEncodeRoundTrip : (Instr.nopF 0xFF).wellFormed = true ∧ (Instr.drw 0xF 0x0 0xF).wellFormed = true := by
  decide
theorem meets_EveryWordSelectsItsOneRow : (∃ r, opcodeRows[0]? = some r) ∧ (∃ r, opcodeRows[37]? = some r) ∧
    opcodeRows[38]? = none := ⟨⟨_, rfl⟩, ⟨_, rfl⟩, rfl⟩
theorem meets_UnassignedKeysAreNops_first : (fieldOp 0x0001 = 0x0 ∧ fieldN 0x0001 ∉ [0x0#4, 0xE]) ∧
    (fieldOp 0x8008 = 0x8 ∧ fieldN 0x8008 ∉ [0x0#4, 0x1, 0x2, 0x3, 0x4, 0x5, 0x6, 0x7, 0xE]) ∧
    (fieldOp 0xE000 = 0xE ∧ fieldN 0xE000 ∉ [0x1#4, 0xE]) ∧
    (fieldOp 0xF000 = 0xF ∧ fieldNN 0xF000 ∉ [0x07#8, 0x0A, 0x15, 0x18, 0x1E, 0x29, 0x33, 0x55, 0x65]) := by decide
theorem meets_UnassignedKeysAreNops_last : (fieldOp 0x0FFF = 0x0 ∧ fieldN 0x0FFF ∉ [0x0#4, 0xE]) ∧
    (fieldOp 0x8FFF = 0x8 ∧ fieldN 0x8FFF ∉ [0x0#4, 0x1, 0x2, 0x3, 0x4, 0x5, 0x6, 0x7, 0xE]) ∧
    (fieldOp 0xEFFF = 0xE ∧ fieldN 0xEFFF ∉ [0x1#4, 0xE]) ∧
    (fieldOp 0xFFFF = 0xF ∧ fieldNN 0xFFFF ∉ [0x07#8, 0x0A, 0x15, 0x18, 0x1E, 0x29, 0x33, 0x55, 0x65]) := by decide

theorem meets_StepRunsDecodedInstruction_completed : ∃ (s t : State) (hi lo : Byte), s.faultCode = .none ∧
    s.memRead s.pc.toNat = .ok hi ∧ s.memRead (s.pc.toNat + 1) = .ok lo ∧
    exec (decodeWord (wordOfBytes hi lo)) s = .next t ∧ t.faultCode = .none :=
  ⟨State.reset, _, 0x00, 0x00, rfl, rfl, rfl, rfl, rfl⟩
theorem meets_StepRunsDecodedInstruction_faulted : ∃ (s t : State) (hi lo : Byte), s.faultCode = .none ∧
    s.memRead s.pc.toNat = .ok hi ∧ s.memRead (s.pc.toNat + 1) = .ok lo ∧
    exec (decodeWord (wordOfBytes hi lo)) s = .next t ∧ t.faultCode ≠ .none :=
  ⟨State.reset.placeWord 0x00EE, _, 0x00, 0xEE, rfl, rfl, rfl, rfl, by decide⟩
theorem meets_PlacedWordIsFetchedNext : State.reset.pc.toNat ≤ 0xFFE ∧
    ({ underflowed with pc := 0xFFE } : State).pc.toNat ≤ 0xFFE := by decide
theorem meets_LatchedFaultBlocksStep : underflowed.faultCode ≠ .none ∧
    (∃ t, transact .step underflowed = .next t) ∧ (∃ t, transact (.key 0xFFFF) underflowed = .next t) ∧
    (∃ t, transact (.rnd 0x00) underflowed = .next t) ∧
    (∃ t, transact (.load [0x12]) { underflowed with stepped := false } = .next t) :=
  ⟨underflowed_latched, ⟨_, underflowed_again⟩, ⟨_, rfl⟩, ⟨_, rfl⟩, ⟨_, rfl⟩⟩
theorem meets_FetchBeyondMemoryFaults : ({ State.reset with pc := 0xFFF } : State).faultCode = .none ∧
    0xFFE < ({ State.reset with pc := 0xFFF } : State).pc.toNat ∧
    0xFFE < ({ State.reset with pc := 0xFFFF } : State).pc.toNat := by decide
theorem meets_FetchIsBigEndianIntoIr_fetched : ∃ s t : State, s.faultCode = .none ∧ step s = .next t ∧
    s.pc.toNat ≤ 0xFFE ∧ t.faultCode = .none :=
  have ⟨t, h, p⟩ := answers (step { State.reset with pc := 0xFFE }) (fun t => t.faultCode = .none) (by decide)
  ⟨_, t, rfl, h, by decide, p⟩
theorem meets_FetchIsBigEndianIntoIr_beyond : ∃ s t : State, s.faultCode = .none ∧ step s = .next t ∧ 0xFFE < s.pc.toNat :=
  have ⟨t, h, _⟩ := answers (step { State.reset with pc := 0xFFF }) (fun _ => True) (by decide)
  ⟨_, t, rfl, h, by decide⟩
theorem meets_TimersTickEachCompletedStep : ∃ (s t : State) (w : Word), s.dt = 0xFF ∧ s.st = 0x01 ∧
    s.faultCode = .none ∧ s.fetchWord = .ok w ∧ step s = .next t ∧ t.faultCode = .none ∧
    (∀ x, decodeWord w ≠ .ldDtVx x) ∧ (∀ x, decodeWord w ≠ .ldStVx x) :=
  have ⟨t, h, p⟩ := answers (step { State.reset with dt := 0xFF, st := 0x01 }) (fun t => t.faultCode = .none) (by decide)
  ⟨_, t, 0x0000, rfl, rfl, rfl, rfl, h, p, by decide, by decide⟩
theorem meets_FaultingStepIsPrecise : ∃ s t : State, s.faultCode = .none ∧ step s = .next t ∧ t.faultCode ≠ .none ∧
    t.faultCode ≠ .fetchRange :=
  ⟨State.reset.placeWord 0x00EE, underflowed, rfl, underflowed_step, by decide, by decide⟩
theorem meets_FaultingStepIsPrecise_fetch : ∃ s t : State, s.faultCode = .none ∧ step s = .next t ∧
    t.faultCode ≠ .none ∧ t.faultCode = .fetchRange :=
  have ⟨t, h, p⟩ := answers (step { State.reset with pc := 0xFFF }) (fun t => t.faultCode = .fetchRange) (by decide)
  ⟨_, t, rfl, h, by simp [p], p⟩
theorem meets_FaultsExactlyAsTabulated : State.reset.faultCode = .none ∧
    ({ State.reset with pc := 0xFFF } : State).dueFault = .fetchRange ∧ State.reset.dueFault = .none ∧
    ({ State.reset with sp := 16 }.placeWord 0x2200).dueFault = .stackOverflow ∧
    (State.reset.placeWord 0x00EE).dueFault = .stackUnderflow ∧
    ({ State.reset with index := 0x1000 }.placeWord 0xF055).dueFault = .memRange ∧
    ((start [(0, 16)]).placeWord 0xE09E).dueFault = .keyRange := by decide
theorem meets_AckClearsTheLatchOnly : underflowed.faultCode ≠ .none ∧ State.reset.faultCode = .none := by decide
theorem meets_StatusReportsTheStep_latched : ∃ s t : State, step s = .next t ∧ s.faultCode ≠ .none :=
  ⟨_, _, underflowed_again, underflowed_latched⟩
theorem meets_StatusReportsTheStep_due : ∃ s t : State, step s = .next t ∧ s.faultCode = .none ∧ s.dueFault ≠ .none :=
  ⟨_, _, underflowed_step, rfl, by decide⟩
theorem meets_StatusReportsTheStep_waiting : ∃ s t : State, step s = .next t ∧ s.faultCode = .none ∧ s.dueFault = .none ∧
    s.awaitingKey :=
  have ⟨t, h, _⟩ := answers (step (State.reset.placeWord 0xF00A)) (fun _ => True) (by decide)
  ⟨_, t, h, rfl, by decide, 0xF00A, 0, rfl, by decide, by decide⟩
theorem meets_AckedFaultIsRaisedAgain : ∃ s t : State, s.faultCode = .none ∧ step s = .next t ∧ t.faultCode ≠ .none :=
  ⟨State.reset.placeWord 0x00EE, underflowed, rfl, underflowed_step, by decide⟩

theorem inv_start : Inv (State.reset.placeWord 0x00EE) :=
  ⟨by decide, by decide, by decide, fun _ => by decide, fun h => absurd rfl h⟩
theorem inv_underflowed : Inv underflowed :=
  ⟨by decide, by decide, by decide, fun h => absurd h underflowed_latched, fun _ => by decide⟩
theorem meets_InvariantKeptByStep : ∃ s t : State, Inv s ∧ step s = .next t ∧ s.faultCode = .none :=
  ⟨_, underflowed, inv_start, underflowed_step, rfl⟩
theorem meets_InvariantKeptByStep_latched : ∃ s t : State, Inv s ∧ step s = .next t ∧ s.faultCode ≠ .none :=
  ⟨underflowed, underflowed, inv_underflowed, underflowed_again, underflowed_latched⟩
theorem meets_InvariantKeptBySessions : ∃ (os : List HostOp) (s t : State), Inv s ∧ session os s = .next t :=
  have ⟨t, h, _⟩ := answers (session [.step, .key 0xFFFF, .ack, .step, .reset, .load [0x12], .rnd 0x00]
    (State.reset.placeWord 0x00EE)) (fun _ => True) (by decide)
  ⟨_, _, t, inv_start, h⟩
theorem meets_CanonicalMemoriesAreEqual : ∃ (c : Config) (m n : Memory), Memory.wf c m ∧ Memory.wf c n ∧
    (∀ a, Memory.read c m a = Memory.read c n a) ∧ m ≠ [] :=
  ⟨Config.default, [(0, 1), (0xFFF, 2)], [(0, 1), (0xFFF, 2)], by decide, by decide, fun _ => rfl, by decide⟩
theorem meets_ParametersNeverChange : ∃ (os : List HostOp) (s t : State), session os s = .next t :=
  have ⟨t, h, _⟩ := answers (session [.load [0x12], .step, .reset] State.reset) (fun _ => True) (by decide)
  ⟨_, _, t, h⟩
theorem meets_KeypadReadByThreeInstructions : ∃ (i : Instr) (s t : State),
    (∀ x, i ≠ .skp x ∧ i ≠ .sknp x ∧ i ≠ .ldVxK x) ∧ exec i s = .next t :=
  ⟨.rnd 0 0xFF, State.reset, _, by decide, rfl⟩
theorem meets_RandomByteReadByOneInstruction : ∃ (i : Instr) (s t : State), (∀ x nn, i ≠ .rnd x nn) ∧ exec i s = .next t :=
  ⟨.ldVxK 0, State.reset, _, nofun, rfl⟩
theorem meets_WhichInstructionsWriteWhat_flag : ∃ t, exec (.addReg 1 2) (start [(1, 0xFF), (2, 0x01)]) = .next t ∧
    t.reg flagReg ≠ (start [(1, 0xFF), (2, 0x01)]).reg flagReg :=
  ⟨_, rfl, by decide⟩
theorem meets_WhichInstructionsWriteWhat_fb : ∃ t, exec .cls (State.dot State.reset 63 31) = .next t ∧
    t.fb ≠ (State.dot State.reset 63 31).fb := ⟨_, rfl, by decide⟩
theorem meets_WhichInstructionsWriteWhat_mem : ∃ t, exec (.ldB 0) { start [(0, 255)] with index := 0xFFD } = .next t ∧
    t.mem ≠ State.reset.mem := ⟨_, rfl, by decide⟩
theorem meets_WhichInstructionsWriteWhat_stack : ∃ t, exec (.call 0) State.reset = .next t ∧ t.sp ≠ State.reset.sp ∧
    t.stack ≠ State.reset.stack := ⟨_, rfl, by decide, by decide⟩
theorem meets_WhichInstructionsWriteWhat_index : ∃ t, exec (.ldI 1) State.reset = .next t ∧ t.index ≠ State.reset.index :=
  ⟨_, rfl, by decide⟩
theorem meets_WhichInstructionsWriteWhat_timers : (∃ t, exec (.ldDtVx 0) (start [(0, 1)]) = .next t ∧ t.dt ≠ State.reset.dt) ∧
    ∃ t, exec (.ldStVx 0) (start [(0, 1)]) = .next t ∧ t.st ≠ State.reset.st :=
  ⟨⟨_, rfl, by decide⟩, ⟨_, rfl, by decide⟩⟩

/-- The font can lie at either end of its range. -/
theorem meets_ResetValues : (State.resetWith { Config.default with fontBase := 0 }).memRead 0 = .ok 0xF0 ∧
    (State.resetWith { Config.default with fontBase := 432 }).memRead 0x1FF = .ok 0x80 ∧
    (State.resetWith Config.default).memRead 0xFFF = .ok 0 := ⟨rfl, rfl, rfl⟩
theorem meets_LoadCopiesTheImage : State.reset.stepped = false ∧ ([] : List Byte).length ≤ 3584 ∧
    (List.replicate 3584 0x12#8).length ≤ 3584 :=
  ⟨rfl, Nat.zero_le _, Nat.le_of_eq List.length_replicate⟩
theorem meets_LongImageIsRejected : State.reset.stepped = false ∧ 3584 < (List.replicate 3585 0x12#8).length :=
  ⟨rfl, Nat.lt_of_lt_of_eq (by decide) List.length_replicate.symm⟩
theorem meets_LoadOnlyBeforeTheFirstStep : underflowed.stepped = true ∧
    (∃ s t : State, s.faultCode = .none ∧ step s = .next t) ∧ (∃ t, transact .reset underflowed = .next t) ∧
    (∃ (s t : State) (image later : List Byte) (r : LoadStatus), s.stepped = false ∧ s.load image = .next (r, t) ∧
      later.length ≤ 3584) :=
  ⟨rfl, ⟨_, _, rfl, underflowed_step⟩, ⟨_, rfl⟩, State.reset, _, [0x12], [0x34, 0x56], _, rfl, rfl, by decide⟩
/-- At both ends of the fetch's range, with a pixel on. -/
theorem meets_ZeroBytesRunAsCls : State.reset.faultCode = .none ∧ State.reset.pc.toNat ≤ 0xFFE ∧
    State.reset.memRead State.reset.pc.toNat = .ok 0 ∧ State.reset.memRead (State.reset.pc.toNat + 1) = .ok 0 :=
  ⟨rfl, by decide, rfl, rfl⟩
theorem meets_ZeroBytesRunAsCls_last : ∃ s : State, s.faultCode = .none ∧ s.pc.toNat = 0xFFE ∧
    s.memRead s.pc.toNat = .ok 0 ∧ s.memRead (s.pc.toNat + 1) = .ok 0 ∧ s.pixel 63 31 = true :=
  ⟨{ State.dot State.reset 63 31 with pc := 0xFFE }, rfl, rfl, rfl, rfl, by decide⟩
theorem meets_SelfJumpLoopsForEver : (State.reset.placeWord 0x1200).final :=
  ⟨rfl, 0x1200, 0x200, rfl, by decide, by decide⟩

theorem meets_RetPopsOrUnderflows : (∃ (s : State) (k : Fin 16), s.sp.val = k.val + 1 ∧ k = 0) ∧
    (∃ (s : State) (k : Fin 16), s.sp.val = k.val + 1 ∧ k = 15) ∧ State.reset.sp.val = 0 :=
  ⟨⟨{ State.reset with sp := 1 }, 0, rfl, rfl⟩, ⟨{ State.reset with sp := 16 }, 15, rfl, rfl⟩, rfl⟩
theorem meets_CallPushesOrOverflows : (∃ (s : State) (k : Fin 16), s.sp.val = k.val ∧ k = 0) ∧
    (∃ (s : State) (k : Fin 16), s.sp.val = k.val ∧ k = 15) ∧ ({ State.reset with sp := 16 } : State).sp.val = 16 :=
  ⟨⟨State.reset, 0, rfl, rfl⟩, ⟨{ State.reset with sp := 15 }, 15, rfl, rfl⟩, rfl⟩
theorem meets_NopsOnlyAdvance_words : UnassignedKey 0x0001 ∧ UnassignedKey 0x8FFF ∧ UnassignedKey 0xE000 ∧ UnassignedKey 0xFFFF := by
  unfold UnassignedKey; decide
theorem meets_NopsOnlyAdvance : ∀ i ∈ [Instr.nop0 1, .nop8 8, .nopE 0, .nopF 0xFF], ∃ (sub : Nibble) (sub8 : Byte),
    i = .nop0 sub ∨ i = .nop8 sub ∨ i = .nopE sub ∨ i = .nopF sub8 :=
  List.forall_mem_cons.mpr ⟨⟨1, 0, .inl rfl⟩, List.forall_mem_cons.mpr ⟨⟨8, 0, .inr (.inl rfl)⟩,
    List.forall_mem_cons.mpr ⟨⟨0, 0, .inr (.inr (.inl rfl))⟩,
      List.forall_mem_singleton.mpr ⟨0, 0xFF, .inr (.inr (.inr rfl))⟩⟩⟩⟩
theorem meets_LogicWritesResultThenFlagPolicy : ∀ i ∈ [Instr.orReg 0xF 2, .andReg 0xF 2, .xorReg 0xF 2], ∃ res : Byte,
    (i = .orReg 0xF 2 ∧ res = State.reset.reg 0xF ||| State.reset.reg 2) ∨
    (i = .andReg 0xF 2 ∧ res = State.reset.reg 0xF &&& State.reset.reg 2) ∨
    (i = .xorReg 0xF 2 ∧ res = State.reset.reg 0xF ^^^ State.reset.reg 2) :=
  List.forall_mem_cons.mpr ⟨⟨_, .inl ⟨rfl, rfl⟩⟩, List.forall_mem_cons.mpr ⟨⟨_, .inr (.inl ⟨rfl, rfl⟩)⟩,
    List.forall_mem_singleton.mpr ⟨_, .inr (.inr ⟨rfl, rfl⟩)⟩⟩⟩
/-- The clauses that ask for X ≠ F. -/
theorem meets_AddSetsCarry : (0xE : Reg) ≠ flagReg ∧ (0x0 : Reg) ≠ flagReg := by decide
theorem meets_SubtractsSetNoBorrow : (0xE : Reg) ≠ flagReg ∧ (0x0 : Reg) ≠ flagReg := by decide
theorem meets_ShiftsSetTheLostBit : ∀ q ∈ [ShiftSrc.vx, .vy], ∃ (s : State) (src : Byte), s.cfg.shiftSrc = q ∧
    src = (if s.cfg.shiftSrc = .vy then s.reg 2 else s.reg 1) := fun q _ =>
  ⟨{ start [(1, 0x05), (2, 0x04)] with cfg := { Config.default with shiftSrc := q } }, _, rfl, rfl⟩
theorem meets_ShiftsSetTheLostBit_dest : (0xE : Reg) ≠ flagReg ∧ (0x0 : Reg) ≠ flagReg := by decide
theorem meets_RndMasksTheRandomByte : ({ State.reset with rnd := some 0xAB } : State).rnd = some 0xAB ∧
    State.reset.rnd = none := ⟨rfl, rfl⟩
theorem meets_DrawFlipsTheCoveredPixels_empty : ∃ (s : State) (n : Nibble) (rows : List Byte),
    (n.toNat = 0 ∨ s.index.toNat + n.toNat - 1 ≤ 0xFFF) ∧ rows.length = n.toNat ∧
    (∀ r, r < n.toNat → s.memRead (s.index.toNat + r) = .ok (rows.getD r 0)) ∧ s.index = 0xFFFF :=
  ⟨{ State.reset with index := 0xFFFF }, 0, [], .inl rfl, rfl, fun _ h => absurd h (Nat.not_lt_zero _), rfl⟩
theorem meets_DrawFlipsTheCoveredPixels : ∃ (s : State) (n : Nibble) (rows : List Byte),
    (n.toNat = 0 ∨ s.index.toNat + n.toNat - 1 ≤ 0xFFF) ∧ rows.length = n.toNat ∧
    (∀ r, r < n.toNat → s.memRead (s.index.toNat + r) = .ok (rows.getD r 0)) ∧ s.index.toNat + n.toNat = 0x1000 :=
  ⟨{ State.poke State.reset 0xFFE [0x80, 0xFF] with index := 0xFFE }, 2, [0x80, 0xFF], .inr (by decide), rfl,
    fun r h => match r with
      | 0 => rfl
      | 1 => rfl
      | r + 2 => absurd h (by show ¬ r + 2 < 2; omega), rfl⟩
theorem meets_DrawFlipsTheCoveredPixels_beyond : 0 < (1 : Nibble).toNat ∧
    0xFFF < ({ State.reset with index := 0x1000 } : State).index.toNat + (1 : Nibble).toNat - 1 := by decide
theorem meets_FbPortIsRowMajor : 63 < 64 ∧ 31 < 32 := by decide
/-- Glyph 0's first row drawn twice at (0, 0), the second time with the coordinates in other registers. -/
theorem meets_DrawingTwiceRestores : ∃ (s t s' t' : State) (x y x' y' : Reg) (n : Nibble) (rows : List Byte),
    (n.toNat = 0 ∨ s.index.toNat + n.toNat - 1 ≤ 0xFFF) ∧ rows.length = n.toNat ∧
    (∀ r, r < n.toNat → s.memRead (s.index.toNat + r) = .ok (rows.getD r 0)) ∧
    exec (.drw x y n) s = .next t ∧
    s'.fb = t.fb ∧ s'.cfg = s.cfg ∧ s'.mem = s.mem ∧ s'.index = s.index ∧
    (s'.reg x').toNat % 64 = (s.reg x).toNat % 64 ∧ (s'.reg y').toNat % 32 = (s.reg y).toNat % 32 ∧
    exec (.drw x' y' n) s' = .next t' := by
  obtain ⟨t, ht, h⟩ := answers (exec (.drw 1 2 1) { State.reset with index := 0x050 })
    (fun t => t.cfg = Config.default ∧ t.mem = [] ∧ t.index = 0x050 ∧ t.reg 3 = 0) (by decide)
  obtain ⟨t', ht'⟩ := exec_next (.drw 3 3 1) t
  exact ⟨{ State.reset with index := 0x050 }, t, t, t', 1, 2, 3, 3, 1, [0xF0], .inr (by decide), rfl,
    fun r hr => match r with
      | 0 => rfl
      | r + 1 => absurd hr (by show ¬ r + 1 < 1; omega),
    ht, rfl, h.1, h.2.1, h.2.2.1, by rw [h.2.2.2]; rfl, by rw [h.2.2.2]; rfl, ht'⟩
theorem meets_BlocksBeyondMemoryFault : (0 < (2 : Nibble).toNat ∧ 0xFFF < (0xFFF : Word).toNat + (2 : Nibble).toNat - 1) ∧
    (0 < (0xF : Nibble).toNat ∧ 0xFFF < (0xFF2 : Word).toNat + (0xF : Nibble).toNat - 1) ∧
    0xFFF < (0xFFE : Word).toNat + 3 - 1 ∧ 0xFFF < (0x1000 : Word).toNat + ((0 : Reg).toNat + 1) - 1 ∧
    0xFFF < (0xFF1 : Word).toNat + ((0xF : Reg).toNat + 1) - 1 := by decide

theorem meets_KeySkipsOrKeyRange : ((start [(4, 15)]).reg 4).toNat ≤ 15 ∧ 15 < ((start [(4, 16)]).reg 4).toNat := by decide
theorem meets_KeyWaitTakesTheLowestKey : (({ State.reset with keys := 0x8000 } : State).keyDown 15 = true ∧
      ∀ j, j < 15 → ({ State.reset with keys := 0x8000 } : State).keyDown j = false) ∧
    ({ State.reset with keys := 0xFFFF } : State).keyDown 0 = true ∧ (∀ k, k < 16 → State.reset.keyDown k = false) := by
  decide
theorem meets_KeyWaitIsABusyWait : (State.reset.placeWord 0xF00A).faultCode = .none ∧
    (State.reset.placeWord 0xF00A).awaitingKey :=
  ⟨rfl, 0xF00A, 0, rfl, by decide, by decide⟩
theorem meets_TimerWritesTickInTheirStep : ∀ w ∈ [0xF307#16, 0xF315#16, 0xF318#16], ∃ s t : State, s.faultCode = .none ∧
    s.fetchWord = .ok w ∧ step s = .next t ∧
    (decodeWord w = .ldVxDt 3 ∨ decodeWord w = .ldDtVx 3 ∨ decodeWord w = .ldStVx 3) := by
  refine List.forall_mem_cons.mpr ⟨?_, List.forall_mem_cons.mpr ⟨?_, List.forall_mem_singleton.mpr ?_⟩⟩
  · have ⟨t, h, _⟩ := answers (step (State.reset.placeWord 0xF307)) (fun _ => True) (by decide)
    exact ⟨_, t, rfl, rfl, h, by decide⟩
  · have ⟨t, h, _⟩ := answers (step (State.reset.placeWord 0xF315)) (fun _ => True) (by decide)
    exact ⟨_, t, rfl, rfl, h, by decide⟩
  · have ⟨t, h, _⟩ := answers (step (State.reset.placeWord 0xF318)) (fun _ => True) (by decide)
    exact ⟨_, t, rfl, rfl, h, by decide⟩
theorem meets_BcdStoresThreeDigits : (0xFFD : Word).toNat + 2 ≤ 0xFFF ∧ 0xFFF < (0xFFE : Word).toNat + 2 := by decide
/-- The last block inside memory and the first beyond it. -/
theorem meets_StoreRegistersBlock : (0xFF0 : Word).toNat + (0xF : Reg).toNat ≤ 0xFFF ∧
    0xFFF < (0xFF1 : Word).toNat + (0xF : Reg).toNat := by decide
theorem meets_LoadRegistersBlock : (0xFFF : Word).toNat + (0x0 : Reg).toNat ≤ 0xFFF ∧
    0xFFF < (0x1000 : Word).toNat + (0x0 : Reg).toNat := by decide
theorem meets_StoreThenLoadRoundTrips : ∃ (s t s' u : State) (x : Reg), s.index.toNat + x.toNat ≤ 0xFFF ∧
    exec (.ldMemVx x) s = .next t ∧ s'.mem = t.mem ∧ s'.cfg = t.cfg ∧ s'.index = t.index ∧ exec (.ldVxMem x) s' = .next u :=
  ⟨{ start [(0, 1), (1, 2)] with index := 0xFFE }, _, _, _, 1, by decide, rfl, rfl, rfl, rfl, rfl⟩

end Sys2Proof.Tests
end

section
/-! PROOFS, family 10_state. What a Step does in terms of the fault it is due, and STATUS and the reset contents read
from that: O17 and O27. -/

namespace Sys2Proof.Machine

/-! ## The latch and STATUS -/

theorem State.latched_iff (s : State) : s.latched = true ↔ s.faultCode ≠ .none := by
  simp [State.latched]

theorem State.latched_eq_false_iff (s : State) : s.latched = false ↔ s.faultCode = .none := by
  simp [State.latched]

theorem State.status_of_latched {s : State} (h : s.faultCode ≠ .none) :
    s.status = .fault s.faultCode s.faultPc s.faultIr :=
  if_pos (s.latched_iff.mpr h)

theorem State.status_of_unlatched {s : State} (h : s.faultCode = .none) : s.status = .ok := by
  rw [State.status, s.latched_eq_false_iff.mpr h]; rfl

theorem State.finish_of_latched {s : State} (w : Word) (h : s.faultCode ≠ .none) : s.finish w = s.markStepped := by
  rw [State.finish, if_pos (s.latched_iff.mpr h)]

theorem State.finish_of_unlatched {s : State} (w : Word) (h : s.faultCode = .none) :
    s.finish w = (s.complete w).markStepped := by
  rw [State.finish, s.latched_eq_false_iff.mpr h]; rfl

/-! ## The fault a Step is due -/

theorem State.fetchOut_iff (s : State) : s.fetchOut = true ↔ 0xFFE < s.pc.toNat := decide_eq_true_iff

/-- A word is fetched only where the fetch range check of R205 passes. -/
theorem State.fetchOut_of_fetchWord {s : State} {w : Word} (h : s.fetchWord = .ok w) : s.fetchOut = false := by
  by_contra ho
  have hpc : 0xFFE < s.pc.toNat := s.fetchOut_iff.mp (by simpa using ho)
  have hlo : s.memRead (s.pc.toNat + 1) = .error (.noSuchAddress (s.pc.toNat + 1)) := if_neg (by omega)
  rw [State.fetchWord, hlo] at h
  split at h <;> simp_all

theorem State.dueFault_of_fetchOut {s : State} (h : s.fetchOut = true) : s.dueFault = .fetchRange :=
  if_pos (s.fetchOut_iff.mp h)

theorem State.dueFault_of_fetchWord {s : State} {w : Word} (h : s.fetchWord = .ok w) :
    s.dueFault = handlerFault s (decodeWord w) := by
  have hpc : ¬ 0xFFE < s.pc.toNat := by simp [← s.fetchOut_iff, State.fetchOut_of_fetchWord h]
  rw [State.dueFault, if_neg hpc, h]

/-- The key wait faults on nothing (R903), whether it finds a key or not. -/
theorem State.dueFault_of_awaitingKey {s : State} (h : s.awaitingKey) : s.dueFault = .none := by
  obtain ⟨w, x, hw, hd, -⟩ := h
  rw [State.dueFault_of_fetchWord hw, hd, handlerFault]

/-- A Step by the fault it is due: a latched state stays as it is (R401); an unlatched one that is due a fault takes it
(R1304); any other runs the handler of the fetched word to its end, and the handler leaves the latch alone. -/
theorem step_outcome {s t : State} (h : step s = .next t) :
    (s.faultCode ≠ .none ∧ t = s) ∨
    (s.faultCode = .none ∧ s.dueFault ≠ .none ∧ t = (s.takeFault s.dueFault).markStepped) ∨
    (s.faultCode = .none ∧ s.dueFault = .none ∧ ∃ w u, s.fetchWord = .ok w ∧ exec (decodeWord w) s = .next u ∧
      s.sameRest u ∧ t = (u.complete w).markStepped) := by
  obtain ⟨hl, ht⟩ | ⟨hl, ho, ht⟩ | ⟨w, u, hl, -, hw, hu, ht⟩ := step_cases h
  · exact .inl ⟨s.latched_iff.mp hl, ht⟩
  · rw [s.latched_eq_false_iff] at hl
    rw [State.dueFault_of_fetchOut ho]
    exact .inr (.inl ⟨hl, nofun, ht⟩)
  · rw [s.latched_eq_false_iff] at hl
    rw [State.dueFault_of_fetchWord hw]
    obtain ⟨hd, rfl⟩ | ⟨hd, hrest⟩ := exec_outcome hu
    · exact .inr (.inl ⟨hl, hd, ht.trans (State.finish_of_latched w hd)⟩)
    · have hc : u.faultCode = .none := by
        obtain ⟨-, -, -, -, -, hc, -⟩ := hrest
        exact hc.trans hl
      exact .inr (.inr ⟨hl, hd, w, u, hw, hu, hrest, ht.trans (State.finish_of_unlatched w hc)⟩)

/-- STATUS of a Step from a latched state is the record it held (R401). -/
theorem status_of_step_latched {s t : State} (h : step s = .next t) (hc : s.faultCode ≠ .none) :
    t.status = .fault s.faultCode s.faultPc s.faultIr := by
  obtain ⟨-, rfl⟩ | ⟨hn, -⟩ | ⟨hn, -⟩ := step_outcome h
  · exact State.status_of_latched hc
  · exact absurd hn hc
  · exact absurd hn hc

/-- STATUS of a Step that raises a fault is the record of that fault (R1304). -/
theorem status_of_step_due {s t : State} (h : step s = .next t) (hc : s.faultCode = .none) (hd : s.dueFault ≠ .none) :
    t.status = .fault s.dueFault s.pc (s.faultWord s.dueFault) := by
  obtain ⟨hn, -⟩ | ⟨-, -, rfl⟩ | ⟨-, hn, -⟩ := step_outcome h
  · exact absurd hc hn
  · exact State.status_of_latched (s := (s.takeFault s.dueFault).markStepped) hd
  · exact absurd hn hd

/-- A Step that is due no fault completes with the latch clear, and STATUS is OK. -/
theorem status_of_step_completed {s t : State} (h : step s = .next t) (hc : s.faultCode = .none)
    (hd : s.dueFault = .none) : t.status = .ok := by
  obtain ⟨hn, -⟩ | ⟨-, hn, -⟩ | ⟨-, -, w, u, -, -, ⟨-, -, -, -, -, hu, -⟩, rfl⟩ := step_outcome h
  · exact absurd hc hn
  · exact absurd hd hn
  · exact State.status_of_unlatched (hu.trans hc)

/-- Settles O17: the latched, the due and the completed Step, and a key wait is due no fault. -/
theorem statusReportsTheStep : Obligations.StatusReportsTheStep := fun _ _ h =>
  ⟨status_of_step_latched h, status_of_step_due h, status_of_step_completed h,
    fun hc hk => status_of_step_completed h hc (State.dueFault_of_awaitingKey hk)⟩

/-! ## Reset -/

/-- The reset contents of memory with the font read from its list (R115, R1401). -/
theorem resetByte_eq (c : Config) (a : Nat) :
    resetByte c a = if c.fontBase.val ≤ a ∧ a ≤ c.fontBase.val + 79 then c.font.toList.getD (a - c.fontBase.val) 0
      else 0 := by
  unfold resetByte
  split
  case isTrue h =>
    have hk : a - c.fontBase.val < c.font.toList.length := by rw [Vector.length_toList]; omega
    rw [if_pos (by omega), List.getD_eq_getElem _ _ hk, Vector.getElem_toList]
  case isFalse h => rw [if_neg (by omega)]

theorem State.memRead_resetWith (c : Config) {a : Nat} (ha : a ≤ 0xFFF) :
    (State.resetWith c).memRead a = .ok (resetByte c a) :=
  State.memRead_ok _ ha

theorem State.reg_resetWith (c : Config) (r : Reg) : (State.resetWith c).reg r = 0 :=
  Vector.getElem_replicate ..

theorem State.slot_resetWith (c : Config) (k : Fin 16) : (State.resetWith c).slot k = 0 :=
  Vector.getElem_replicate ..

theorem State.pixel_resetWith (c : Config) (x y : Nat) : (State.resetWith c).pixel x y = false :=
  pixelOf_blankScreen x y

theorem State.keyDown_resetWith (c : Config) (k : Nat) : (State.resetWith c).keyDown k = false :=
  BitVec.getLsbD_zero

/-- Settles O27: the scalar places by computation, the indexed ones by their lemmas. -/
theorem resetValues : Obligations.ResetValues := fun c =>
  ⟨State.reg_resetWith c, rfl, rfl, rfl, State.slot_resetWith c, rfl, rfl,
    fun a ha => by rw [State.memRead_resetWith c ha, resetByte_eq],
    State.pixel_resetWith c, State.keyDown_resetWith c, rfl, rfl, rfl, rfl⟩

end Sys2Proof.Machine
end

section
/-! PROOFS, family 20_memory. What fault entry and the end of a faulted Step leave alone, place by place, and the two
range checks of spec/20_memory.md read from that: O10 and O50. -/

namespace Sys2Proof.Machine

/-! ## Frames -/

theorem Place.same_trans {s t u : State} {p : Place} (hst : p.same s t) (htu : p.same t u) : p.same s u := by
  cases p with
  | rnd | host =>
    obtain ⟨⟨h₁, h₂⟩, k₁, k₂⟩ := And.intro hst htu
    exact ⟨k₁.trans h₁, k₂.trans h₂⟩
  | latch =>
    obtain ⟨⟨hcode, hpc, hir⟩, kcode, kpc, kir⟩ := And.intro hst htu
    exact ⟨kcode.trans hcode, kpc.trans hpc, kir.trans hir⟩
  | _ => exact Eq.trans htu hst

theorem Keeps.trans {ps qs : List Place} {s t u : State} (hst : Keeps ps s t) (htu : Keeps qs t u) :
    Keeps (ps ++ qs) s u := fun p hp =>
  have ⟨hps, hqs⟩ := not_or.mp (mt List.mem_append.mpr hp)
  Place.same_trans (hst p hps) (htu p hqs)

/-- Fault entry writes the latch alone (R1304). -/
theorem State.keeps_takeFault (s : State) (c : FaultCode) : Keeps [.latch] s (s.takeFault c) := fun p hp => by
  cases p with
  | latch => exact absurd (List.mem_singleton_self _) hp
  | rnd | host => exact ⟨rfl, rfl⟩
  | _ => rfl

theorem State.keeps_markStepped (s : State) : Keeps [.host] s s.markStepped := fun p hp => by
  cases p with
  | host => exact absurd (List.mem_singleton_self _) hp
  | rnd => exact ⟨rfl, rfl⟩
  | latch => exact ⟨rfl, rfl, rfl⟩
  | _ => rfl

/-! ## The fetch (R205) -/

theorem step_of_fetchOut {s : State} (hl : s.latched = false) (ho : s.fetchOut = true) :
    step s = .next (s.takeFault .fetchRange).markStepped := by
  rw [step, hl, if_neg Bool.false_ne_true, if_pos ho]

/-- Settles O10: the fetch range check comes before any read, and a faulted Step writes the latch and then the host's
bookkeeping. -/
theorem fetchBeyondMemoryFaults : Obligations.FetchBeyondMemoryFaults := fun s hc hpc =>
  ⟨_, step_of_fetchOut (s.latched_eq_false_iff.mpr hc) (s.fetchOut_iff.mpr hpc), rfl, rfl, rfl,
    (s.keeps_takeFault .fetchRange).trans (State.keeps_markStepped _)⟩

/-! ## The blocks at I (R206) -/

/-- Any fault but FETCH_RANGE records the fetched word (R1302, R1304). -/
theorem State.faultWord_of_fetchWord {s : State} {c : FaultCode} {w : Word} (hc : c ≠ .fetchRange)
    (hw : s.fetchWord = .ok w) : s.faultWord c = w := by
  cases c with
  | fetchRange => exact absurd rfl hc
  | _ => simp only [State.faultWord, hw]

/-- A handler raises a fault when its answer is fault entry. -/
theorem raisesFault_of_exec {i : Instr} {c : FaultCode} {s : State} (hc : c ≠ .fetchRange)
    (h : exec i s = .next (s.takeFault c)) : RaisesFault i c s :=
  ⟨_, h, rfl, rfl, fun _ => State.faultWord_of_fetchWord hc, s.keeps_takeFault c⟩

/-- Settles O50: in each of the four instructions a block beyond memory fails the check that precedes every access. -/
theorem blocksBeyondMemoryFault : Obligations.BlocksBeyondMemoryFault := fun s =>
  ⟨fun x y n hn hb => raisesFault_of_exec nofun (execDrw_out x y n s ((s.blockOut_iff _).mpr ⟨hn, hb⟩)),
    fun x hb => raisesFault_of_exec nofun (execLdB_out x s ((s.blockOut_iff _).mpr ⟨by decide, hb⟩)),
    fun x hb =>
      have ho : s.blockOut (x.toNat + 1) = true := (s.blockOut_iff _).mpr ⟨Nat.succ_pos _, hb⟩
      ⟨raisesFault_of_exec nofun (execLdMemVx_out x s ho), raisesFault_of_exec nofun (execLdVxMem_out x s ho)⟩⟩

end Sys2Proof.Machine
end

section
/-! PROOFS, family 30_encoding. What each family of R304 makes of its key, and the unassigned keys and the ignored middle
nibbles read from that: O5 and O6. -/

namespace Sys2Proof

/-! ## The families of the top nibble (R303, R304) -/

theorem decodeWord_family0 {w : Word} (h : fieldOp w = 0x0) : decodeWord w = decode0 w := by
  rw [decodeWord, h]; rfl

theorem decodeWord_family8 {w : Word} (h : fieldOp w = 0x8) : decodeWord w = decode8 w := by
  rw [decodeWord, h]; rfl

theorem decodeWord_familyE {w : Word} (h : fieldOp w = 0xE) : decodeWord w = decodeE w := by
  rw [decodeWord, h]; rfl

theorem decodeWord_familyF {w : Word} (h : fieldOp w = 0xF) : decodeWord w = decodeF w := by
  rw [decodeWord, h]; rfl

/-! ## The keys (R307 to R310) -/

theorem decode0_eq_ite (w : Word) :
    decode0 w = if fieldN w = 0x0 then .cls else if fieldN w = 0xE then .ret else .nop0 (fieldN w) := by
  unfold decode0
  split
  next hkey =>
    have hkey : fieldN w = 0x0 := BitVec.eq_of_toNat_eq hkey
    simp [hkey]
  next hkey =>
    have hkey : fieldN w = 0xE := BitVec.eq_of_toNat_eq hkey
    simp [hkey]
  next h0 hE => rw [if_neg (mt (congrArg BitVec.toNat) h0), if_neg (mt (congrArg BitVec.toNat) hE)]

theorem decodeE_eq_ite (w : Word) :
    decodeE w = if fieldN w = 0xE then .skp (fieldX w) else if fieldN w = 0x1 then .sknp (fieldX w)
      else .nopE (fieldN w) := by
  unfold decodeE
  split
  next hkey =>
    have hkey : fieldN w = 0xE := BitVec.eq_of_toNat_eq hkey
    simp [hkey]
  next hkey =>
    have hkey : fieldN w = 0x1 := BitVec.eq_of_toNat_eq hkey
    simp [hkey]
  next hE h1 => rw [if_neg (mt (congrArg BitVec.toNat) hE), if_neg (mt (congrArg BitVec.toNat) h1)]

theorem decode0_of_unassigned {w : Word} (h : fieldN w ∉ assigned0) : decode0 w = .nop0 (fieldN w) := by
  obtain ⟨h0, hE⟩ : fieldN w ≠ 0x0 ∧ fieldN w ≠ 0xE := by simpa [assigned0] using h
  rw [decode0_eq_ite, if_neg h0, if_neg hE]

theorem decodeE_of_unassigned {w : Word} (h : fieldN w ∉ assignedE) : decodeE w = .nopE (fieldN w) := by
  obtain ⟨h1, hE⟩ : fieldN w ≠ 0x1 ∧ fieldN w ≠ 0xE := by simpa [assignedE] using h
  rw [decodeE_eq_ite, if_neg hE, if_neg h1]

/-- Every arm but the last has its key among those of R308. -/
theorem decode8_of_unassigned {w : Word} (h : fieldN w ∉ assigned8) : decode8 w = .nop8 (fieldN w) := by
  unfold decode8
  split
  case h_10 => rfl
  all_goals exact absurd (by simp [assigned8, ← BitVec.toNat_inj, *]) h

/-- Every arm but the last has its key among those of R310. -/
theorem decodeF_of_unassigned {w : Word} (h : fieldNN w ∉ assignedF) : decodeF w = .nopF (fieldNN w) := by
  unfold decodeF
  split
  case h_10 => rfl
  all_goals exact absurd (by simp [assignedF, ← BitVec.toNat_inj, *]) h

/-- Settles O5: each family's default arm. -/
theorem unassignedKeysAreNops : Obligations.UnassignedKeysAreNops := fun _ =>
  ⟨fun hop hkey => (decodeWord_family0 hop).trans (decode0_of_unassigned hkey),
    fun hop hkey => (decodeWord_family8 hop).trans (decode8_of_unassigned hkey),
    fun hop hkey => (decodeWord_familyE hop).trans (decodeE_of_unassigned hkey),
    fun hop hkey => (decodeWord_familyF hop).trans (decodeF_of_unassigned hkey)⟩

/-- Settles O6: the key is the bottom nibble of the word, and the middle ones give at most the operand X. -/
theorem keyedOnBottomNibbleAlone : Obligations.KeyedOnBottomNibbleAlone :=
  ⟨fun a b n => by rw [decodeWord_family0 (fieldOp_word4 ..), decode0_eq_ite, fieldN_word4],
    fun x b n => by rw [decodeWord_familyE (fieldOp_word4 ..), decodeE_eq_ite, fieldN_word4, fieldX_word4]⟩

end Sys2Proof
end

section
/-! PROOFS, family 40_step_driver. The latch that blocks a Step, the word a Step fetches and the no-op handler: O9, O11
and O34. -/

namespace Sys2Proof.Machine

/-! ## The latch (R401, R1305) -/

theorem step_of_latched {s : State} (hl : s.latched = true) : step s = .next s := if_pos hl

theorem State.not_final_of_latched {s : State} (hl : s.latched = true) : ¬ s.final := fun ⟨hn, _⟩ =>
  Bool.false_ne_true (hn.symm.trans hl)

/-- LOAD writes memory and its own bookkeeping, or nothing (R1410, R1411). -/
theorem State.load_keeps_latch {s : State} {image : List Byte} {r : LoadStatus × State} (h : s.load image = .next r) :
    Place.latch.same s r.2 := by
  unfold State.load at h
  split at h
  · cases h
  · split at h <;> cases h <;> exact ⟨rfl, rfl, rfl⟩

/-- Besides ACK and RESET only a Step that raises a fault writes the latch, and a latched state blocks it. -/
theorem transact_keeps_latch {o : HostOp} {s t : State} (h : transact o s = .next t) (hl : s.latched = true)
    (hack : o ≠ .ack) (hreset : o ≠ .reset) : Place.latch.same s t := by
  cases o with
  | reset => exact absurd rfl hreset
  | ack => exact absurd rfl hack
  | step =>
    cases (step_of_latched hl).symm.trans h
    exact ⟨rfl, rfl, rfl⟩
  | load image =>
    simp only [transact] at h
    split at h
    next r hr =>
      cases h
      exact State.load_keeps_latch hr
    all_goals cases h
  | key k | rnd b =>
    cases h
    exact ⟨rfl, rfl, rfl⟩

/-- Settles O9: the latch check comes first in a Step, and no host operation but ACK and RESET writes the latch. -/
theorem latchedFaultBlocksStep : Obligations.LatchedFaultBlocksStep := fun s hc =>
  have hl : s.latched = true := s.latched_iff.mpr hc
  ⟨⟨step_of_latched hl, State.status_of_latched hc, State.not_final_of_latched hl⟩,
    fun _ _ h hack hreset => transact_keeps_latch h hl hack hreset⟩

/-! ## The fetched word (R402) -/

/-- A fetched word is the two bytes at PC, the byte at the lower address the high one (R203). -/
theorem State.bytes_of_fetchWord {s : State} {w : Word} (h : s.fetchWord = .ok w) :
    ∃ hi lo, s.memRead s.pc.toNat = .ok hi ∧ s.memRead (s.pc.toNat + 1) = .ok lo ∧ w = hi ++ lo := by
  unfold State.fetchWord at h
  split at h
  next hi lo hhi hlo =>
    cases h
    exact ⟨hi, lo, hhi, hlo, rfl⟩
  all_goals cases h

/-- Settles O11: IR is the word that the start of the Step fetched, whatever the handler stored since; beyond memory the
range check is the whole Step. -/
theorem fetchIsBigEndianIntoIr : Obligations.FetchIsBigEndianIntoIr := by
  intro s t hc h
  constructor
  · intro _ ht
    obtain ⟨hn, -⟩ | ⟨-, hd, rfl⟩ | ⟨-, -, w, u, hw, -, -, rfl⟩ := step_outcome h
    · exact absurd hc hn
    · exact absurd ht hd
    · exact State.bytes_of_fetchWord hw
  · intro hpc
    cases (step_of_fetchOut (s.latched_eq_false_iff.mpr hc) (s.fetchOut_iff.mpr hpc)).symm.trans h
    exact ⟨rfl, rfl⟩

/-! ## The no-op handler (R403, R408) -/

theorem State.keeps_setPc (s : State) (w : Word) : Keeps [.pc] s (s.setPc w) := fun p hp => by
  cases p with
  | pc => exact absurd (List.mem_singleton_self _) hp
  | rnd | host => exact ⟨rfl, rfl⟩
  | latch => exact ⟨rfl, rfl, rfl⟩
  | _ => rfl

theorem exec_nop {i : Instr} {sub : Nibble} {sub8 : Byte}
    (h : i = .nop0 sub ∨ i = .nop8 sub ∨ i = .nopE sub ∨ i = .nopF sub8) (s : State) : exec i s = .next s.advance := by
  obtain rfl | rfl | rfl | rfl := h <;> rfl

/-- R408 lists the seven unassigned keys of family 8, R308 the nine assigned ones. -/
theorem not_mem_assigned8 {n : Nibble} (h : n ∈ [0x8#4, 0x9, 0xA, 0xB, 0xC, 0xD, 0xF]) : n ∉ assigned8 := by
  revert n
  decide

theorem decodeWord_of_unassignedKey {w : Word} (h : UnassignedKey w) :
    decodeWord w = .nop0 (fieldN w) ∨ decodeWord w = .nop8 (fieldN w) ∨ decodeWord w = .nopE (fieldN w) ∨
      decodeWord w = .nopF (fieldNN w) := by
  obtain ⟨nop0, nop8, nopE, nopF⟩ := unassignedKeysAreNops w
  obtain ⟨hop, hkey⟩ | ⟨hop, hkey⟩ | ⟨hop, hkey⟩ | ⟨hop, hkey⟩ := h
  · exact .inl (nop0 hop hkey)
  · exact .inr (.inl (nop8 hop (not_mem_assigned8 hkey)))
  · exact .inr (.inr (.inl (nopE hop hkey)))
  · exact .inr (.inr (.inr (nopF hop hkey)))

/-- Settles O34: an unassigned key decodes to a NOP constructor, and each of the four only advances PC. -/
theorem nopsOnlyAdvance : Obligations.NopsOnlyAdvance :=
  ⟨fun s _ hw => ⟨_, exec_nop (decodeWord_of_unassignedKey hw) s, rfl, s.keeps_setPc _⟩,
    fun s _ _ _ hi => ⟨_, exec_nop hi s, rfl, s.keeps_setPc _⟩⟩

end Sys2Proof.Machine
end

section
/-! PROOFS, family 41_flow_control. The rows of the opcode table that flow control needs, what each jump and skip makes of
PC, and the frames of the clear and of the stack operations: O35 to O40. -/

namespace Sys2Proof

/-! ## The rows of flow control (R306) -/

section Rows

variable (x y n : Nibble) (nn : Byte) (nnn : Addr12)

theorem decodeWord_jp : decodeWord (wordNNN 0x1 nnn) = .jp nnn := by
  rw [decodeWord, fieldOp_wordNNN, fieldNNN_wordNNN]; rfl

theorem decodeWord_call : decodeWord (wordNNN 0x2 nnn) = .call nnn := by
  rw [decodeWord, fieldOp_wordNNN, fieldNNN_wordNNN]; rfl

theorem decodeWord_jpV0 : decodeWord (wordNNN 0xB nnn) = .jpV0 nnn := by
  rw [decodeWord, fieldOp_wordNNN, fieldNNN_wordNNN]; rfl

theorem decodeWord_seImm : decodeWord (wordXNN 0x3 x nn) = .seImm x nn := by
  rw [decodeWord, fieldOp_wordXNN, fieldX_wordXNN, fieldNN_wordXNN]; rfl

theorem decodeWord_sneImm : decodeWord (wordXNN 0x4 x nn) = .sneImm x nn := by
  rw [decodeWord, fieldOp_wordXNN, fieldX_wordXNN, fieldNN_wordXNN]; rfl

theorem decodeWord_seReg : decodeWord (word4 0x5 x y n) = .seReg x y := by
  rw [decodeWord, fieldOp_word4, fieldX_word4, fieldY_word4]; rfl

theorem decodeWord_sneReg : decodeWord (word4 0x9 x y n) = .sneReg x y := by
  rw [decodeWord, fieldOp_word4, fieldX_word4, fieldY_word4]; rfl

end Rows

end Sys2Proof

namespace Sys2Proof.Machine

/-! ## Jumps (R503, R509) -/

theorem zext16_toNat (nnn : Addr12) : (zext16 nnn).toNat = nnn.toNat :=
  BitVec.toNat_setWidth_of_le (by decide)

/-- The target of JP V0 is at most 0x10FE. -/
theorem zext16_add_byte_toNat (nnn : Addr12) (b : Byte) :
    (zext16 nnn + b.setWidth 16).toNat = nnn.toNat + b.toNat := by
  have hb : (b.setWidth 16).toNat = b.toNat := BitVec.toNat_setWidth_of_le (by decide)
  have hlt : (zext16 nnn).toNat + (b.setWidth 16).toNat < 2 ^ 16 := by
    rw [zext16_toNat, hb]; omega
  rw [BitVec.toNat_add_of_lt hlt, zext16_toNat, hb]

/-- Settles O37: the operand is zero-extended into PC. -/
theorem jpSetsPc : Obligations.JpSetsPc := fun s nnn =>
  ⟨decodeWord_jp nnn, _, rfl, zext16_toNat nnn, s.keeps_setPc (zext16 nnn)⟩

/-- Settles O40: the sum of a 12-bit and an 8-bit number fits in PC. -/
theorem jpV0AddsTheOffset : Obligations.JpV0AddsTheOffset := fun s nnn =>
  ⟨decodeWord_jpV0 nnn, _, rfl, zext16_add_byte_toNat nnn (s.reg 0), s.keeps_setPc _⟩

/-! ## Skips (R500, R505 to R508) -/

theorem State.skipIf_advance (s : State) (c : Bool) :
    s.advance.skipIf c = s.setPc (if c then s.pc + 2 + 2 else s.pc + 2) := by
  cases c <;> rfl

/-- A handler that skips on top of the fetch advance, with its test read as the proposition it decides. -/
theorem exec_skip {i : Instr} {s : State} {c : Bool} {p : Prop} [Decidable p] (hp : c = true ↔ p)
    (h : exec i s = .next (s.advance.skipIf c)) :
    ∃ t, exec i s = .next t ∧ t.pc = (if p then s.pc + 2 + 2 else s.pc + 2) ∧ Keeps [.pc] s t := by
  rw [State.skipIf_advance] at h
  exact ⟨_, h, if_congr hp rfl rfl, s.keeps_setPc _⟩

/-- Settles O39: each of the four handlers is a skip on its own comparison. -/
theorem skipsCompareAndAdvance : Obligations.SkipsCompareAndAdvance := fun _ x y n nn =>
  ⟨⟨decodeWord_seImm x nn, exec_skip beq_iff_eq rfl⟩, ⟨decodeWord_sneImm x nn, exec_skip bne_iff_ne rfl⟩,
    ⟨decodeWord_seReg x y n, exec_skip beq_iff_eq rfl⟩, ⟨decodeWord_sneReg x y n, exec_skip bne_iff_ne rfl⟩⟩

/-! ## The clear (R501) -/

theorem State.keepsExcept_advance_fb (s : State) (fb : Framebuffer) :
    KeepsExcept (fun p => p = .pc ∨ ∃ x y, p = .pixel x y) s { s.advance with fb := fb } := fun p hp => by
  cases p with
  | pc => exact absurd (.inl rfl) hp
  | pixel x y => exact absurd (.inr ⟨x, y, rfl⟩) hp
  | rnd | host => exact ⟨rfl, rfl⟩
  | latch => exact ⟨rfl, rfl, rfl⟩
  | _ => rfl

/-- Settles O35: key 0 of family 0, and a blank screen has every pixel off. -/
theorem clsClearsTheDisplay : Obligations.ClsClearsTheDisplay :=
  ⟨fun a b => keyedOnBottomNibbleAlone.1 a b 0x0, fun s => ⟨_, rfl, pixelOf_blankScreen, rfl, s.keepsExcept_advance_fb _⟩⟩

/-! ## The stack (R502, R504) -/

/-- A call or a return writes PC, SP and at most the slots named. -/
theorem State.keeps_stack (s : State) {ps : List Place} {stack : Vector Word 16} (sp : Fin 17) (pc : Word)
    (hpc : .pc ∈ ps) (hsp : .sp ∈ ps) (hslot : ∀ k : Fin 16, .slot k ∉ ps → stack[k] = s.slot k) :
    Keeps ps s { s with stack := stack, sp := sp, pc := pc } := fun p hp => by
  cases p with
  | pc => exact absurd hpc hp
  | sp => exact absurd hsp hp
  | slot k => exact hslot k hp
  | rnd | host => exact ⟨rfl, rfl⟩
  | latch => exact ⟨rfl, rfl, rfl⟩
  | _ => rfl

theorem exec_ret_entry {s : State} {k : Fin 16} (h : s.sp.val = k.val + 1) :
    ∃ t, exec .ret s = .next t ∧ t.sp.val = k.val ∧ t.pc = s.slot k ∧ Keeps [.pc, .sp] s t := by
  obtain ⟨sp, hsp, hret⟩ := execRet_entry s k h
  exact ⟨_, hret, hsp, rfl, s.keeps_stack sp _ (by simp) (by simp) fun _ _ => rfl⟩

/-- Settles O36: key E of family 0, and the pop in its two cases. -/
theorem retPopsOrUnderflows : Obligations.RetPopsOrUnderflows :=
  ⟨fun a b => keyedOnBottomNibbleAlone.1 a b 0xE, fun _ _ => exec_ret_entry,
    fun s h => raisesFault_of_exec nofun (execRet_empty s h)⟩

theorem exec_call_room {s : State} {k : Fin 16} (nnn : Addr12) (h : s.sp.val = k.val) :
    ∃ t, exec (.call nnn) s = .next t ∧ t.slot k = s.pc + 2 ∧ t.sp.val = k.val + 1 ∧ t.pc.toNat = nnn.toNat ∧
      Keeps [.pc, .sp, .slot k] s t := by
  obtain ⟨stack, sp, hsp, hslot, hcall⟩ := execCall_room nnn s (h ▸ k.isLt)
  have htop : stack[k] = s.pc + 2 := (hslot k).trans (if_pos h.symm)
  have hrest (j : Fin 16) (hj : .slot j ∉ [Place.pc, .sp, .slot k]) : stack[j] = s.slot j := by
    have hne : j ≠ k := by rintro rfl; simp at hj
    exact (hslot j).trans (if_neg (h ▸ Fin.val_ne_of_ne hne))
  exact ⟨_, hcall, htop, hsp.trans (congrArg (· + 1) h), zext16_toNat nnn, s.keeps_stack sp _ (by simp) (by simp) hrest⟩

/-- Settles O38: the push in its two cases. -/
theorem callPushesOrOverflows : Obligations.CallPushesOrOverflows :=
  ⟨decodeWord_call, fun _ nnn _ => exec_call_room nnn, fun s nnn h => raisesFault_of_exec nofun (execCall_full nnn s h)⟩

end Sys2Proof.Machine
end

section
/-! PROOFS, family 42_register_ops. The rows of the register operations, the frames of the register writes, and what the
result and the flag of each operation are as numbers: O41 to O45. -/

namespace Sys2Proof

/-! ## The rows of the register operations (R306, R308) -/

theorem decodeWord_ldImm (x : Reg) (nn : Byte) : decodeWord (wordXNN 0x6 x nn) = .ldImm x nn := by
  rw [decodeWord, fieldOp_wordXNN, fieldX_wordXNN, fieldNN_wordXNN]; rfl

theorem decodeWord_addImm (x : Reg) (nn : Byte) : decodeWord (wordXNN 0x7 x nn) = .addImm x nn := by
  rw [decodeWord, fieldOp_wordXNN, fieldX_wordXNN, fieldNN_wordXNN]; rfl

/-- Family 8 by its key, so that at each key the right side evaluates to that row's instruction. -/
theorem decodeWord_key8 (x y : Reg) (n : Nibble) :
    decodeWord (word4 0x8 x y n) =
      if n = 0x0 then .ldReg x y else if n = 0x1 then .orReg x y else if n = 0x2 then .andReg x y
      else if n = 0x3 then .xorReg x y else if n = 0x4 then .addReg x y else if n = 0x5 then .subReg x y
      else if n = 0x6 then .shr x y else if n = 0x7 then .subn x y else if n = 0xE then .shl x y
      else .nop8 n := by
  rw [decodeWord_family8 (fieldOp_word4 ..), decode8, fieldN_word4, fieldX_word4, fieldY_word4]
  rcases n with ⟨k, hk⟩
  interval_cases k <;> rfl

end Sys2Proof

namespace Sys2Proof.Machine

/-! ## The register writes (R600, R604) -/

theorem State.keeps_setReg (s : State) (x : Reg) (b : Byte) : Keeps [.reg x] s (s.setReg x b) := fun p hp => by
  cases p with
  | reg r =>
    have hne : x ≠ r := by rintro rfl; exact hp (List.mem_singleton_self _)
    exact s.reg_setReg_ne b hne
  | rnd | host => exact ⟨rfl, rfl⟩
  | latch => exact ⟨rfl, rfl, rfl⟩
  | _ => rfl

theorem State.keeps_advance_setReg (s : State) (x : Reg) (b : Byte) : Keeps [.pc, .reg x] s (s.advance.setReg x b) :=
  (s.keeps_setPc _).trans (State.keeps_setReg _ x b)

theorem State.keeps_advance_setResultFlag (s : State) (x : Reg) (r f : Byte) :
    Keeps [.pc, .reg x, .reg flagReg] s (s.advance.setResultFlag x r f) :=
  (s.keeps_advance_setReg x r).trans (State.keeps_setReg _ flagReg f)

theorem Keeps.keepsExcept {ps : List Place} {written : Place → Prop} {s t : State} (h : Keeps ps s t)
    (hps : ∀ p ∈ ps, written p) : KeepsExcept written s t := fun p hp => h p (mt (hps p) hp)

/-- Under either policy of R604 only registers are written. -/
theorem State.keepsExcept_advance_setLogic (s : State) (x : Reg) (r : Byte) :
    KeepsExcept (fun p => p = .pc ∨ ∃ q, p = .reg q) s (s.advance.setLogic x r) := by
  unfold State.setLogic
  split
  · exact (s.keeps_advance_setResultFlag x r 0).keepsExcept (by simp)
  · exact (s.keeps_advance_setReg x r).keepsExcept (by simp)

/-! ## Moves and logic (R601 to R607) -/

/-- Settles O41: each of the three handlers is one register write after the fetch advance. -/
theorem movesAndAddImmediate : Obligations.MovesAndAddImmediate := fun s x y nn =>
  have hsum : ((s.advance.setReg x (s.reg x + nn)).reg x).toNat = ((s.reg x).toNat + nn.toNat) % 256 := by
    rw [State.reg_setReg_self, BitVec.toNat_add]
  ⟨⟨decodeWord_ldImm x nn, _, rfl, State.reg_setReg_self .., rfl, s.keeps_advance_setReg x nn⟩,
    ⟨decodeWord_addImm x nn, _, rfl, hsum, rfl, s.keeps_advance_setReg x _⟩,
    ⟨decodeWord_key8 x y 0x0, _, rfl, State.reg_setReg_self .., rfl, s.keeps_advance_setReg x _⟩⟩

theorem exec_logic {i : Instr} {s : State} {x : Reg} {res : Byte} (h : exec i s = .next (s.advance.setLogic x res)) :
    ∃ t, exec i s = .next t ∧ t.pc = s.pc + 2 ∧
      (∀ r, t.reg r = if s.cfg.logicVfReset = true ∧ r = flagReg then 0 else if r = x then res else s.reg r) ∧
      KeepsExcept (fun p => p = .pc ∨ ∃ r, p = .reg r) s t :=
  ⟨_, h, State.setLogic_pc .., fun r => s.advance.reg_setLogic x r res, s.keepsExcept_advance_setLogic x res⟩

/-- Settles O42: the three handlers differ in the result alone. -/
theorem logicWritesResultThenFlagPolicy : Obligations.LogicWritesResultThenFlagPolicy := fun s x y =>
  ⟨⟨decodeWord_key8 x y 0x1, decodeWord_key8 x y 0x2, decodeWord_key8 x y 0x3⟩, fun i res hi => by
    obtain ⟨rfl, rfl⟩ | ⟨rfl, rfl⟩ | ⟨rfl, rfl⟩ := hi <;> exact exec_logic rfl⟩

/-! ## Results with a flag (R600) -/

/-- A handler that writes a result and then a flag, with the flag written out as `f'` and the result read as the number
`k`. -/
theorem exec_resultFlag {i : Instr} {s : State} {x : Reg} {r f f' : Byte} {k : Nat} (hf : f = f') (hr : r.toNat = k)
    (h : exec i s = .next (s.advance.setResultFlag x r f)) :
    ∃ t, exec i s = .next t ∧ t.pc = s.pc + 2 ∧ t.reg flagReg = f' ∧ (x ≠ flagReg → (t.reg x).toNat = k) ∧
      Keeps [.pc, .reg x, .reg flagReg] s t :=
  have hdest (hx : x ≠ flagReg) : ((s.advance.setResultFlag x r f).reg x).toNat = k := by
    rw [State.setResultFlag_dest _ _ _ hx, hr]
  ⟨_, h, rfl, (State.setResultFlag_flag ..).trans hf, hdest, s.keeps_advance_setResultFlag x r f⟩

/-- The same with the flag, too, read as a number. -/
theorem exec_resultBit {i : Instr} {s : State} {x : Reg} {r f : Byte} {k m : Nat} (hf : f.toNat = m) (hr : r.toNat = k)
    (h : exec i s = .next (s.advance.setResultFlag x r f)) :
    ∃ t, exec i s = .next t ∧ t.pc = s.pc + 2 ∧ (t.reg flagReg).toNat = m ∧
      (x ≠ flagReg → (t.reg x).toNat = k) ∧ Keeps [.pc, .reg x, .reg flagReg] s t :=
  have ⟨t, ht, hpc, hflag, hrest⟩ := exec_resultFlag rfl hr h
  ⟨t, ht, hpc, (congrArg _ hflag).trans hf, hrest⟩

/-! ## Sums and differences (R608, R609, R611) -/

theorem carryFlag_eq (a b : Byte) : carryFlag a b = if a.toNat + b.toNat > 255 then 1 else 0 :=
  if_congr decide_eq_true_iff rfl rfl

theorem noBorrowFlag_eq (a b : Byte) : noBorrowFlag a b = if a.toNat ≥ b.toNat then 1 else 0 :=
  if_congr decide_eq_true_iff rfl rfl

theorem byte_sub_toNat (a b : Byte) : (a - b).toNat = (256 + a.toNat - b.toNat) % 256 := by
  rw [BitVec.toNat_sub]; omega

/-- Settles O43: the carry is read from the old operands, before either write. -/
theorem addSetsCarry : Obligations.AddSetsCarry := fun _ x y =>
  ⟨decodeWord_key8 x y 0x4, exec_resultFlag (carryFlag_eq ..) (BitVec.toNat_add ..) rfl⟩

/-- Settles O44: SUB and SUBN are one difference with the operands exchanged. -/
theorem subtractsSetNoBorrow : Obligations.SubtractsSetNoBorrow := fun _ x y =>
  ⟨⟨decodeWord_key8 x y 0x5, exec_resultFlag (noBorrowFlag_eq ..) (byte_sub_toNat ..) rfl⟩,
    ⟨decodeWord_key8 x y 0x7, exec_resultFlag (noBorrowFlag_eq ..) (byte_sub_toNat ..) rfl⟩⟩

/-! ## Shifts (R610, R612, R613) -/

theorem State.shiftOperand_eq (s : State) (x y : Reg) :
    s.shiftOperand x y = if s.cfg.shiftSrc = .vy then s.reg y else s.reg x := by
  rw [State.shiftOperand]
  cases s.cfg.shiftSrc <;> rfl

theorem flagByte_getLsbD_toNat (b : Byte) (k : Nat) : (flagByte (b.getLsbD k)).toNat = b.toNat / 2 ^ k % 2 := by
  rw [← Nat.toNat_testBit, BitVec.getLsbD]
  cases b.toNat.testBit k <;> rfl

theorem lowBitFlag_toNat (b : Byte) : (lowBitFlag b).toNat = b.toNat % 2 := by
  rw [lowBitFlag, flagByte_getLsbD_toNat, pow_zero, Nat.div_one]

/-- Bit 7 is the top bit, so the quotient has no bit above it. -/
theorem highBitFlag_toNat (b : Byte) : (highBitFlag b).toNat = b.toNat / 128 := by
  rw [highBitFlag, flagByte_getLsbD_toNat]; omega

theorem byte_shiftRight_one_toNat (b : Byte) : (b >>> 1).toNat = b.toNat / 2 := by
  rw [BitVec.toNat_ushiftRight, Nat.shiftRight_one]

theorem byte_shiftLeft_one_toNat (b : Byte) : (b <<< 1).toNat = b.toNat * 2 % 256 := by
  rw [BitVec.toNat_shiftLeft, Nat.shiftLeft_eq]

/-- Settles O45: the source of the statement is the operand both handlers shift. -/
theorem shiftsSetTheLostBit : Obligations.ShiftsSetTheLostBit := fun s x y src hsrc => by
  obtain rfl : src = s.shiftOperand x y := hsrc.trans (s.shiftOperand_eq x y).symm
  exact ⟨⟨decodeWord_key8 x y 0x6, exec_resultBit (lowBitFlag_toNat _) (byte_shiftRight_one_toNat _) rfl⟩,
    ⟨decodeWord_key8 x y 0xE, exec_resultBit (highBitFlag_toNat _) (byte_shiftLeft_one_toNat _) rfl⟩⟩

end Sys2Proof.Machine
end

section
/-! PROOFS, family 43_index_random. The rows of the index and random operations, what the index handlers write to I as a
number, and the byte of the RND port: O46 and O47. -/

namespace Sys2Proof

/-! ## The rows of index and random (R306, R310) -/

theorem decodeWord_ldI (nnn : Addr12) : decodeWord (wordNNN 0xA nnn) = .ldI nnn := by
  rw [decodeWord, fieldOp_wordNNN, fieldNNN_wordNNN]; rfl

theorem decodeWord_rnd (x : Reg) (nn : Byte) : decodeWord (wordXNN 0xC x nn) = .rnd x nn := by
  rw [decodeWord, fieldOp_wordXNN, fieldX_wordXNN, fieldNN_wordXNN]; rfl

/-- Family F by its key, so that at each key the right side evaluates to that row's instruction. -/
theorem decodeWord_keyF (x : Reg) (nn : Byte) :
    decodeWord (wordXNN 0xF x nn) =
      if nn = 0x07 then .ldVxDt x else if nn = 0x0A then .ldVxK x else if nn = 0x15 then .ldDtVx x
      else if nn = 0x18 then .ldStVx x else if nn = 0x1E then .addI x else if nn = 0x29 then .ldF x
      else if nn = 0x33 then .ldB x else if nn = 0x55 then .ldMemVx x else if nn = 0x65 then .ldVxMem x
      else .nopF nn := by
  rw [decodeWord_familyF (fieldOp_wordXNN ..)]
  by_cases hkey : nn ∈ assignedF
  · rw [decodeF, fieldNN_wordXNN, fieldX_wordXNN]
    simp only [assignedF, List.mem_cons, List.not_mem_nil, or_false] at hkey
    obtain rfl | rfl | rfl | rfl | rfl | rfl | rfl | rfl | rfl := hkey <;> rfl
  · rw [decodeF_of_unassigned (by rwa [fieldNN_wordXNN]), fieldNN_wordXNN]
    simp_all [assignedF]

end Sys2Proof

namespace Sys2Proof.Machine

/-! ## The index register (R700 to R702) -/

theorem State.keeps_advance_index (s : State) (w : Word) :
    Keeps [.pc, .index] s { s.advance with index := w } := fun p hp => by
  cases p with
  | pc | index => simp at hp
  | rnd | host => exact ⟨rfl, rfl⟩
  | latch => exact ⟨rfl, rfl, rfl⟩
  | _ => rfl

/-- A handler that writes I after the fetch advance, with the value read as the number `k`. -/
theorem exec_index {i : Instr} {s : State} {w : Word} {k : Nat} (hw : w.toNat = k)
    (h : exec i s = .next { s.advance with index := w }) :
    ∃ t, exec i s = .next t ∧ t.index.toNat = k ∧ t.pc = s.pc + 2 ∧ Keeps [.pc, .index] s t :=
  ⟨_, h, hw, rfl, s.keeps_advance_index w⟩

theorem word_add_byte_toNat (w : Word) (b : Byte) : (w + b.setWidth 16).toNat = (w.toNat + b.toNat) % 65536 := by
  rw [BitVec.toNat_add, BitVec.toNat_setWidth_of_le (by decide)]

theorem byte_and_lowNibble_toNat (b : Byte) : (b &&& 0xF).toNat = b.toNat % 16 :=
  Nat.and_two_pow_sub_one_eq_mod b.toNat 4

/-- A glyph's address is at most 432 + 5 × 15, so it fits in I wherever the font lies. -/
theorem State.glyphAddr_toNat (s : State) (x : Reg) :
    (s.glyphAddr x).toNat = s.cfg.fontBase.val + 5 * ((s.reg x).toNat % 16) := by
  have hfont : s.cfg.fontBase.val < 433 := s.cfg.fontBase.isLt
  rw [State.glyphAddr, byte_and_lowNibble_toNat, BitVec.toNat_ofNat, Nat.mod_eq_of_lt (by omega)]

/-- Settles O46: each of the three handlers writes I after the fetch advance. -/
theorem indexWrites : Obligations.IndexWrites := fun s x nnn =>
  ⟨⟨decodeWord_ldI nnn, exec_index (zext16_toNat nnn) rfl⟩,
    ⟨decodeWord_keyF x 0x1E, exec_index (word_add_byte_toNat s.index (s.reg x)) rfl⟩,
    ⟨decodeWord_keyF x 0x29, exec_index (s.glyphAddr_toNat x) rfl⟩⟩

/-! ## The random byte (R409, R703) -/

/-- The random source is read only when the host has put no byte on the port. -/
theorem State.rndByte_of_port {s : State} {b : Byte} (h : s.rnd = some b) : s.rndByte = b := by
  rw [State.rndByte, h]

/-- Settles O47: RND is the byte of this Step, from the port or from the random source. -/
theorem rndMasksTheRandomByte : Obligations.RndMasksTheRandomByte := fun s x nn =>
  ⟨decodeWord_rnd x nn, _, s.rndByte, rfl, fun _ => State.rndByte_of_port, State.reg_setReg_self .., rfl,
    s.keeps_advance_setReg x _⟩

end Sys2Proof.Machine
end

section
/-! PROOFS, family 44_display. The row of DRW, the bytes a checked block holds, and the frame and the flag of a draw:
O48. -/

namespace Sys2Proof

theorem decodeWord_drw (x y : Reg) (n : Nibble) : decodeWord (word4 0xD x y n) = .drw x y n := by
  rw [decodeWord, fieldOp_word4, fieldX_word4, fieldY_word4, fieldN_word4]; rfl

end Sys2Proof

namespace Sys2Proof.Machine

/-! ## The sprite's rows (R206, R800, R804) -/

theorem State.blockOut_eq_false_iff (s : State) (len : Nat) :
    s.blockOut len = false ↔ len = 0 ∨ s.index.toNat + len - 1 ≤ 0xFFF := by
  rw [← Bool.not_eq_true, State.blockOut_iff]; omega

/-- An address that answers exists, and the answer is the byte there (R13). -/
theorem State.read_of_memRead {s : State} {a : Nat} {b : Byte} (h : s.memRead a = .ok b) :
    Memory.read s.cfg s.mem a = b := by
  unfold State.memRead at h
  split at h <;> cases h
  rfl

/-- The block at I is the only list that agrees with memory byte by byte. -/
theorem State.blockBytes_eq {s : State} {len : Nat} {rows : List Byte} (hlen : rows.length = len)
    (hrows : ∀ r, r < len → s.memRead (s.index.toNat + r) = .ok (rows.getD r 0)) : s.blockBytes len = rows := by
  refine List.ext_getElem (by rw [State.blockBytes_length, hlen]) fun r hb hr => ?_
  rw [← List.getD_eq_getElem _ 0 hb, ← List.getD_eq_getElem _ 0 hr]
  have hlt : r < len := hlen ▸ hr
  rw [s.blockBytes_getD len r hlt, State.read_of_memRead (hrows r hlt)]

/-! ## The draw (R801, R803) -/

theorem flagByte_eq_zero_or_one (c : Bool) : flagByte c = 0 ∨ flagByte c = 1 := by
  cases c <;> decide

theorem flagByte_eq_one_iff (c : Bool) : flagByte c = 1 ↔ c = true := by
  cases c <;> decide

theorem State.keepsExcept_draw (s : State) (fb : Framebuffer) (b : Byte) :
    KeepsExcept (fun p => p = .pc ∨ p = .reg flagReg ∨ ∃ px py, p = .pixel px py) s
      ({ s.advance with fb := fb }.setReg flagReg b) := fun p hp =>
  have hfb : ¬ (p = .pc ∨ ∃ px py, p = .pixel px py) := mt (Or.imp_right .inr) hp
  have hflag : p ∉ [.reg flagReg] := fun h => hp (.inr (.inl (List.mem_singleton.mp h)))
  Place.same_trans (s.keepsExcept_advance_fb fb p hfb) (State.keeps_setReg _ flagReg b p hflag)

/-- A sprite has at most 15 rows, so the screen's 32 keep its spots distinct under either policy of R802. -/
theorem exec_drw_in {s : State} (x y : Reg) {n : Nibble} (hin : s.blockOut n.toNat = false) :
    ∃ t, exec (.drw x y n) s = .next t ∧ t.pc = s.pc + 2 ∧
      (∀ px py, px < 64 → py < 32 → (t.pixel px py = true ↔ (s.pixel px py = true ↔
        ¬ Covers s.cfg.drawEdge (s.spriteX x) (s.spriteY y) (s.blockBytes n.toNat) px py))) ∧
      (t.reg flagReg = 0 ∨ t.reg flagReg = 1) ∧
      (t.reg flagReg = 1 ↔ ∃ px py, s.pixel px py = true ∧
        Covers s.cfg.drawEdge (s.spriteX x) (s.spriteY y) (s.blockBytes n.toNat) px py) ∧
      KeepsExcept (fun p => p = .pc ∨ p = .reg flagReg ∨ ∃ px py, p = .pixel px py) s t := by
  have hfew : (s.blockBytes n.toNat).length ≤ 32 := by rw [State.blockBytes_length]; omega
  refine ⟨_, execDrw_in x y n s hin, rfl, fun px py => drawRows_pixel _ _ _ _ _ hfew, ?_, ?_, s.keepsExcept_draw _ _⟩
  · rw [State.reg_setReg_self]
    exact flagByte_eq_zero_or_one _
  · rw [State.reg_setReg_self, flagByte_eq_one_iff]
    exact drawRows_collision _ _ _ _ _ hfew

/-- Settles O48: the rows are the block at I, and a block beyond memory fails the check before any access. -/
theorem drawFlipsTheCoveredPixels : Obligations.DrawFlipsTheCoveredPixels := fun s x y n _ =>
  ⟨decodeWord_drw x y n,
    fun hin hlen hrows => State.blockBytes_eq hlen hrows ▸ exec_drw_in x y ((s.blockOut_eq_false_iff _).mpr hin),
    fun ⟨hn, hb⟩ => (blocksBeyondMemoryFault s).1 x y n hn hb⟩

end Sys2Proof.Machine
end

section
/-! PROOFS, family 45_input. The key number's range check, the scan for the lowest pressed key, and the key handlers in
their cases: O52 and O53. -/

namespace Sys2Proof.Machine

/-! ## The key skips (R900 to R902) -/

theorem State.keyOut_iff (s : State) (x : Reg) : s.keyOut x = true ↔ 15 < (s.reg x).toNat := decide_eq_true_iff

theorem State.keyOut_of_le {s : State} {x : Reg} (h : (s.reg x).toNat ≤ 15) : s.keyOut x = false :=
  decide_eq_false h.not_gt

theorem execSkp_out {x : Reg} {s : State} (h : s.keyOut x = true) : execSkp x s = .next (s.takeFault .keyRange) :=
  if_pos h

theorem execSkp_in {x : Reg} {s : State} (h : s.keyOut x = false) :
    execSkp x s = .next (s.advance.skipIf (s.keyDown (s.reg x).toNat)) := by
  rw [execSkp, h, if_neg Bool.false_ne_true]

theorem execSknp_out {x : Reg} {s : State} (h : s.keyOut x = true) : execSknp x s = .next (s.takeFault .keyRange) :=
  if_pos h

theorem execSknp_in {x : Reg} {s : State} (h : s.keyOut x = false) :
    execSknp x s = .next (s.advance.skipIf (!s.keyDown (s.reg x).toNat)) := by
  rw [execSknp, h, if_neg Bool.false_ne_true]

/-- Settles O52: the two keys of family E, a skip on the key's bit within the range, and fault entry beyond it. -/
theorem keySkipsOrKeyRange : Obligations.KeySkipsOrKeyRange := fun s x b =>
  ⟨keyedOnBottomNibbleAlone.2 x b 0xE, keyedOnBottomNibbleAlone.2 x b 0x1,
    fun hle =>
      have hin : s.keyOut x = false := State.keyOut_of_le hle
      ⟨exec_skip Iff.rfl (execSkp_in hin), exec_skip (iff_of_eq (Bool.not_eq_true' _)) (execSknp_in hin)⟩,
    fun hgt =>
      have hout : s.keyOut x = true := (s.keyOut_iff x).mpr hgt
      ⟨raisesFault_of_exec nofun (execSkp_out hout), raisesFault_of_exec nofun (execSknp_out hout)⟩⟩

/-! ## The key wait (R903) -/

theorem State.lowestKey_eq_some_iff (s : State) (k : Nat) :
    s.lowestKey = some k ↔ k < 16 ∧ s.keyDown k = true ∧ ∀ j < k, s.keyDown j = false := by
  simp only [State.lowestKey, List.find?_range_eq_some, List.mem_range, Bool.not_eq_true', and_left_comm]

theorem State.lowestKey_eq_none_iff (s : State) : s.lowestKey = none ↔ ∀ k < 16, s.keyDown k = false := by
  simp only [State.lowestKey, List.find?_range_eq_none, Bool.not_eq_true']

theorem execLdVxK_key {x : Reg} {s : State} {k : Nat} (h : s.lowestKey = some k) :
    execLdVxK x s = .next (s.advance.setReg x (BitVec.ofNat 8 k)) := by
  rw [execLdVxK, h]

/-- The 2 taken off PC are those of the fetch advance (R403), so the handler answers the state it was given. -/
theorem execLdVxK_noKey (x : Reg) {s : State} (h : s.lowestKey = none) : execLdVxK x s = .next s := by
  have hpc : s.advance.pc - 2 = s.pc := BitVec.add_sub_cancel ..
  rw [execLdVxK, h, hpc]
  rfl

theorem Keeps.refl (ps : List Place) (s : State) : Keeps ps s s := fun p _ => by
  cases p with
  | rnd | host => exact ⟨rfl, rfl⟩
  | latch => exact ⟨rfl, rfl, rfl⟩
  | _ => rfl

/-- Settles O53: the scan answers the lowest key down, whose number fits in a register, or none. -/
theorem keyWaitTakesTheLowestKey : Obligations.KeyWaitTakesTheLowestKey := fun s x =>
  ⟨decodeWord_keyF x 0x0A,
    fun k hk hdown hlow =>
      have hkey : s.lowestKey = some k := (s.lowestKey_eq_some_iff k).mpr ⟨hk, hdown, hlow⟩
      have hval : ((s.advance.setReg x (BitVec.ofNat 8 k)).reg x).toNat = k := by
        rw [State.reg_setReg_self, BitVec.toNat_ofNat, Nat.mod_eq_of_lt (by omega)]
      ⟨_, execLdVxK_key hkey, hval, rfl, s.keeps_advance_setReg x _⟩,
    fun hup => ⟨s, execLdVxK_noKey x (s.lowestKey_eq_none_iff.mpr hup), Keeps.refl [] s⟩⟩

end Sys2Proof.Machine
end

section
/-! PROOFS, family 46_timers. The frame of a timer write, and the three timer handlers: O55. -/

namespace Sys2Proof.Machine

/-! ## The timer moves (R1000 to R1002) -/

/-- A timer write after the fetch advance writes PC and at most the timers named. -/
theorem State.keeps_advance_timers (s : State) {ps : List Place} (dt st : Byte) (hpc : .pc ∈ ps)
    (hdt : .dt ∉ ps → dt = s.dt) (hst : .st ∉ ps → st = s.st) :
    Keeps ps s { s.advance with dt := dt, st := st } := fun p hp => by
  cases p with
  | pc => exact absurd hpc hp
  | dt => exact hdt hp
  | st => exact hst hp
  | rnd | host => exact ⟨rfl, rfl⟩
  | latch => exact ⟨rfl, rfl, rfl⟩
  | _ => rfl

/-- Settles O55: FX07 is a register write and FX15 and FX18 are timer writes, each after the fetch advance. -/
theorem timerReadsAndWrites : Obligations.TimerReadsAndWrites := fun s x =>
  ⟨⟨decodeWord_keyF x 0x07, _, rfl, State.reg_setReg_self .., rfl, s.keeps_advance_setReg x s.dt⟩,
    ⟨decodeWord_keyF x 0x15, _, rfl, rfl, rfl,
      s.keeps_advance_timers (s.reg x) s.st (by simp) (by simp) fun _ => rfl⟩,
    ⟨decodeWord_keyF x 0x18, _, rfl, rfl, rfl,
      s.keeps_advance_timers s.dt (s.reg x) (by simp) (fun _ => rfl) (by simp)⟩⟩

end Sys2Proof.Machine
end

section
/-! PROOFS, family 47_memory_block. What a block store after the fetch advance leaves at each address, the frame of a block
load into registers, and the three handlers on either side of the block check: O57, O58 and O59. -/

namespace Sys2Proof.Machine

/-! ## Block stores (R204, R1100, R1101) -/

/-- A handler that stores a block inside memory at I after the fetch advance: each byte is read back at its address, and
only PC and the block's addresses are written. -/
theorem exec_storeBlock {i : Instr} {s : State} {bs : List Byte} {written : Place → Prop}
    (h : exec i s = .next { s.advance with mem := Memory.writeList s.cfg s.mem s.index.toNat bs })
    (hin : s.index.toNat + bs.length ≤ 0x1000) (hpc : written .pc)
    (hbyte : ∀ k < bs.length, written (.byte (s.index.toNat + k))) :
    ∃ t, exec i s = .next t ∧ (∀ k < bs.length, t.memRead (s.index.toNat + k) = .ok (bs.getD k 0)) ∧
      t.pc = s.pc + 2 ∧ KeepsExcept written s t := by
  refine ⟨_, h, fun k hk => ?_, rfl, fun p hp => ?_⟩
  · rw [State.memRead_ok _ (by omega)]
    exact congrArg _ ((Memory.read_writeList ..).trans (by rw [if_pos (by omega), Nat.add_sub_cancel_left]))
  · cases p with
    | pc => exact absurd hpc hp
    | byte a =>
      have hout : ¬ (s.index.toNat ≤ a ∧ a < s.index.toNat + bs.length) := fun ⟨hle, hlt⟩ =>
        hp (Nat.add_sub_cancel' hle ▸ hbyte (a - s.index.toNat) (by omega))
      simp only [Place.same, State.memRead, State.advance_cfg, Memory.read_writeList, if_neg hout]
    | rnd | host => exact ⟨rfl, rfl⟩
    | latch => exact ⟨rfl, rfl, rfl⟩
    | _ => rfl

/-- A byte is at most 255, so each digit fits in a byte of its own. -/
theorem bcdDigits_toNat (b : Byte) : ((bcdDigits b).getD 0 0).toNat = b.toNat / 100 ∧
    ((bcdDigits b).getD 1 0).toNat = b.toNat / 10 % 10 ∧ ((bcdDigits b).getD 2 0).toNat = b.toNat % 10 :=
  have hlt : b.toNat < 256 := b.isLt
  ⟨Nat.mod_eq_of_lt (by omega), Nat.mod_eq_of_lt (by omega), Nat.mod_eq_of_lt (by omega)⟩

/-- Settles O57: the digits are a block store of three bytes. -/
theorem bcdStoresThreeDigits : Obligations.BcdStoresThreeDigits := fun s x => by
  have ⟨_, hfault, _⟩ := blocksBeyondMemoryFault s
  refine ⟨decodeWord_keyF x 0x33, fun hin => ?_, hfault x⟩
  have hexec := execLdB_in x s ((s.blockOut_eq_false_iff 3).mpr (.inr hin))
  have hlen : (bcdDigits (s.reg x)).length = 3 := rfl
  have hbyte : ∀ k < 3, Place.byte (s.index.toNat + k) ∈
      [.pc, .byte s.index.toNat, .byte (s.index.toNat + 1), .byte (s.index.toNat + 2)] := fun k hk => by
    interval_cases k <;> simp
  obtain ⟨t, ht, hread, hpc, hkeeps⟩ := exec_storeBlock (i := .ldB x) hexec (by omega) (List.mem_cons_self ..) hbyte
  obtain ⟨hhundreds, htens, hunits⟩ := bcdDigits_toNat (s.reg x)
  exact ⟨t, _, _, _, ht, hread 0 (by omega), hread 1 (by omega), hread 2 (by omega), hhundreds, htens, hunits, hpc, hkeeps⟩

theorem State.regList_getD_toNat (s : State) {r x : Reg} (h : r.toNat ≤ x.toNat) :
    (s.regList (x.toNat + 1)).getD r.toNat 0 = s.reg r := by
  rw [s.regList_getD _ _ (Nat.lt_succ_of_le h), BitVec.ofNat_toNat, BitVec.setWidth_eq]

/-- Settles O58: the registers are a block store of X + 1 bytes, V[r] at place r. -/
theorem storeRegistersBlock : Obligations.StoreRegistersBlock := fun s x => by
  have ⟨_, _, hfault⟩ := blocksBeyondMemoryFault s
  refine ⟨decodeWord_keyF x 0x55, fun hin => ?_, fun hout => (hfault x hout).left⟩
  have hexec := execLdMemVx_in x s ((s.blockOut_eq_false_iff _).mpr (.inr hin))
  have hlen : (s.regList (x.toNat + 1)).length = x.toNat + 1 := s.regList_length _
  obtain ⟨t, ht, hread, hpc, hkeeps⟩ := exec_storeBlock (i := .ldMemVx x)
    (written := fun p => p = .pc ∨ ∃ k, k ≤ x.toNat ∧ p = .byte (s.index.toNat + k)) hexec
    (by omega) (.inl rfl) fun k hk => .inr ⟨k, by omega, rfl⟩
  exact ⟨t, ht, fun r hr => s.regList_getD_toNat hr ▸ hread r.toNat (by omega), hpc, hkeeps⟩

/-! ## Block loads (R1102) -/

/-- A block load into registers after the fetch advance writes PC and at most the registers named. -/
theorem State.keepsExcept_advance_setRegs (s : State) {bs : List Byte} {written : Place → Prop} (hlen : bs.length ≤ 16)
    (hpc : written .pc) (hreg : ∀ r : Reg, r.toNat < bs.length → written (.reg r)) :
    KeepsExcept written s (s.advance.setRegs 0 bs) := fun p hp => by
  cases p with
  | pc => exact absurd hpc hp
  | reg r =>
    exact (s.advance.reg_setRegs 0 bs r (by omega)).trans (if_neg fun ⟨_, hlt⟩ => hp (hreg r (by omega)))
  | rnd | host => rw [State.setRegs_eq]; exact ⟨rfl, rfl⟩
  | latch => rw [State.setRegs_eq]; exact ⟨rfl, rfl, rfl⟩
  | _ => rw [State.setRegs_eq]; rfl

/-- V[r] after a load of V[0] to V[X] from I, for r up to X. -/
theorem State.reg_advance_setRegs_blockBytes (s : State) {r x : Reg} (h : r.toNat ≤ x.toNat) :
    (s.advance.setRegs 0 (s.blockBytes (x.toNat + 1))).reg r = Memory.read s.cfg s.mem (s.index.toNat + r.toNat) := by
  have hlen : (s.blockBytes (x.toNat + 1)).length = x.toNat + 1 := s.blockBytes_length _
  rw [State.reg_setRegs _ _ _ _ (by omega), if_pos (by omega), Nat.sub_zero, s.blockBytes_getD _ _ (by omega)]

/-- Settles O59: the registers up to V[X] take the block at I, and X is at most 15. -/
theorem loadRegistersBlock : Obligations.LoadRegistersBlock := fun s x => by
  have ⟨_, _, hfault⟩ := blocksBeyondMemoryFault s
  refine ⟨decodeWord_keyF x 0x65, fun hin => ?_, fun hout => (hfault x hout).right⟩
  have hexec := execLdVxMem_in x s ((s.blockOut_eq_false_iff _).mpr (.inr hin))
  have hlen : (s.blockBytes (x.toNat + 1)).length = x.toNat + 1 := s.blockBytes_length _
  refine ⟨_, hexec, fun r hr => ?_, ?_, s.keepsExcept_advance_setRegs (by omega) (.inl rfl)
    fun r hr => .inr ⟨r, by omega, rfl⟩⟩
  · rw [s.reg_advance_setRegs_blockBytes hr, s.memRead_ok (by omega)]
  · rw [State.setRegs_eq]; rfl

end Sys2Proof.Machine
end

section
/-! PROOFS, family 60_exceptions. Every state has a Step, the fault it is due depends on no port and no latch, and fault
entry and acknowledgement place by place: O13 to O16 and O18. -/

namespace Sys2Proof.Machine

/-! ## Every Step answers (R405, R1304) -/

/-- Settles O18: the latch, the range check and the handler each answer a state. -/
theorem everyStepAnswersAState : Obligations.EveryStepAnswersAState := fun s => by
  cases hl : s.latched
  · cases ho : s.fetchOut
    · obtain ⟨t, ht⟩ := exec_next (decodeWord _) s
      exact ⟨_, step_runs hl ho (s.fetchWord_ok ho) ht⟩
    · exact ⟨_, step_of_fetchOut hl ho⟩
  · exact ⟨s, step_of_latched hl⟩

/-! ## The fault that is raised (R1301) -/

theorem faultCode_of_step {s t : State} (h : step s = .next t) (hc : s.faultCode = .none) :
    t.faultCode = s.dueFault := by
  obtain ⟨hn, -⟩ | ⟨-, -, rfl⟩ | ⟨-, hd, w, u, -, -, ⟨-, -, -, -, -, hu, -⟩, rfl⟩ := step_outcome h
  · exact absurd hc hn
  · rfl
  · exact (hu.trans hc).trans hd.symm

/-- Settles O14: the latch after a Step holds the code the table gives, and its numbers are R1301's. -/
theorem faultsExactlyAsTabulated : Obligations.FaultsExactlyAsTabulated :=
  ⟨fun s hc => (everyStepAnswersAState s).imp fun _ ht => ⟨ht, faultCode_of_step ht hc⟩, rfl⟩

/-- A Step that is due a fault is fault entry with it (R1304). -/
theorem step_of_dueFault {s : State} (hc : s.faultCode = .none) (hd : s.dueFault ≠ .none) :
    step s = .next (s.takeFault s.dueFault).markStepped := by
  obtain ⟨t, ht⟩ := everyStepAnswersAState s
  obtain ⟨hn, -⟩ | ⟨-, -, rfl⟩ | ⟨-, hn, -⟩ := step_outcome ht
  · exact absurd hc hn
  · exact ht
  · exact absurd hn hd

theorem step_eq_takeFault {s t : State} (h : step s = .next t) (hc : s.faultCode = .none) (ht : t.faultCode ≠ .none) :
    t = (s.takeFault s.dueFault).markStepped := by
  rw [faultCode_of_step h hc] at ht
  cases h.symm.trans (step_of_dueFault hc ht)
  rfl

theorem State.keeps_takeFault_markStepped (s : State) (c : FaultCode) :
    Keeps [.latch, .host] s (s.takeFault c).markStepped :=
  (s.keeps_takeFault c).trans (State.keeps_markStepped _)

/-- Only FETCH_RANGE comes before the fetch (R1303). -/
theorem State.fetchWord_of_dueFault {s : State} (h : s.dueFault ≠ .fetchRange) : ∃ w, s.fetchWord = .ok w := by
  cases ho : s.fetchOut
  · exact ⟨_, s.fetchWord_ok ho⟩
  · exact absurd (State.dueFault_of_fetchOut ho) h

/-- Settles O13: the faulted Step is fault entry and the host's bookkeeping. -/
theorem faultingStepIsPrecise : Obligations.FaultingStepIsPrecise := fun s t hc h ht => by
  have hstatus : t.status = .fault t.faultCode t.faultPc t.faultIr := State.status_of_latched ht
  obtain rfl := step_eq_takeFault h hc ht
  refine ⟨rfl, fun hd => ?_, fun hd => ?_, s.keeps_takeFault_markStepped _, rfl, hstatus⟩
  · have hd : s.dueFault = .fetchRange := hd
    rw [State.markStepped_faultIr, State.takeFault_faultIr, hd]
    rfl
  · obtain ⟨w, hw⟩ := State.fetchWord_of_dueFault hd
    exact ⟨w, hw, State.faultWord_of_fetchWord hd hw⟩

/-! ## Acknowledgement (R1306) -/

theorem Keeps.mono {ps qs : List Place} {s t : State} (h : Keeps ps s t) (hps : ∀ p ∈ ps, p ∈ qs ∨ p.same s t) :
    Keeps qs s t := fun p hp => by
  by_cases hmem : p ∈ ps
  · exact (hps p hmem).resolve_left hp
  · exact h p hmem

/-- Settles O15: ACK is one record update of a latched state, and nothing on any other. -/
theorem ackClearsTheLatchOnly : Obligations.AckClearsTheLatchOnly := fun s =>
  ⟨fun hc => by
    have hack : s.ack = { s with faultCode := .none, faultPc := 0, faultIr := 0 } := if_neg hc
    rw [hack]
    refine ⟨rfl, rfl, rfl, fun p hp => ?_⟩
    cases p with
    | latch => exact absurd (List.mem_singleton_self _) hp
    | rnd | host => exact ⟨rfl, rfl⟩
    | _ => rfl,
  fun hc => if_pos hc⟩

theorem State.keeps_setKeys (s : State) (k : BitVec 16) : Keeps [.keys] s (s.setKeys k) := fun p hp => by
  cases p with
  | keys => exact absurd (List.mem_singleton_self _) hp
  | rnd | host => exact ⟨rfl, rfl⟩
  | latch => exact ⟨rfl, rfl, rfl⟩
  | _ => rfl

theorem State.keeps_setRnd (s : State) (b : Byte) : Keeps [.rnd] s (s.setRnd b) := fun p hp => by
  cases p with
  | rnd => exact absurd (List.mem_singleton_self _) hp
  | host => exact ⟨rfl, rfl⟩
  | latch => exact ⟨rfl, rfl, rfl⟩
  | _ => rfl

/-- The word a fault records depends on PC and memory alone. -/
theorem State.faultWord_congr {s t : State} {c : FaultCode} (h : t.fetchWord = s.fetchWord) :
    t.faultWord c = s.faultWord c := by
  simp only [State.faultWord, h]

/-- What R1301's table reads: the word at PC, and of the operands I, SP and the registers. -/
theorem State.dueFault_congr {s t : State} (hfetch : t.fetchWord = s.fetchWord) (hpc : t.pc = s.pc)
    (hv : t.v = s.v) (hindex : t.index = s.index) (hsp : t.sp = s.sp) : t.dueFault = s.dueFault := by
  have hhandler (i : Instr) : handlerFault t i = handlerFault s i := by
    unfold handlerFault
    simp only [State.reg_congr hv, hindex, hsp]
  simp only [State.dueFault, hpc, hfetch, hhandler]

/-- Settles O16: between the two Steps only the latch, the ports and the host's bookkeeping have changed, and the fault
that is due rests on none of them. -/
theorem ackedFaultIsRaisedAgain : Obligations.AckedFaultIsRaisedAgain := fun s t k b hc h ht => by
  obtain ⟨-, -, -, hack⟩ := (ackClearsTheLatchOnly t).left ht
  obtain rfl := step_eq_takeFault h hc ht
  generalize hr : (((s.takeFault s.dueFault).markStepped.ack.setKeys k).setRnd b) = r
  have hports : Keeps [.latch, .keys, .rnd] (s.takeFault s.dueFault).markStepped r :=
    hr ▸ (hack.trans (State.keeps_setKeys _ k)).trans (State.keeps_setRnd _ b)
  have hfetch : r.fetchWord = s.fetchWord := State.fetchWord_congr (by simp [← hr]) (by simp [← hr]) (by simp [← hr])
  have hdue : r.dueFault = s.dueFault :=
    State.dueFault_congr hfetch (by simp [← hr]) (by simp [← hr]) (by simp [← hr]) (by simp [← hr])
  have hpc : r.pc = s.pc := by simp [← hr]
  have hword : r.faultWord s.dueFault = s.faultWord s.dueFault := State.faultWord_congr hfetch
  have hu := step_of_dueFault (s := r) (by simp [← hr]) (hdue ▸ ht)
  rw [hdue] at hu
  refine ⟨_, hu, rfl, hpc, hword, (hports.trans (r.keeps_takeFault_markStepped _)).mono ?_⟩
  subst hr
  simp [Place.same, hword]

end Sys2Proof.Machine
end

section
/-! PROOFS, family 30_encoding, the encoder. A well-formed instruction's word decodes to it, a decoded word is encoded as
itself up to the ignored bits, and the rows of the opcode table exclude each other: O1 to O4. -/

namespace Sys2Proof

/-- Settles O1: each word by computation. -/
theorem decodesWordsOfEveryFamily : Obligations.DecodesWordsOfEveryFamily := by
  unfold Obligations.DecodesWordsOfEveryFamily
  decide

/-! ## The formats as four nibbles (R301) -/

theorem wordXNN_append (op x a b : Nibble) : wordXNN op x (a ++ b) = word4 op x a b := by
  ext i hi; simp [wordXNN, word4]; grind

theorem wordNNN_append (op x y n : Nibble) : wordNNN op (x ++ y ++ n) = word4 op x y n := by
  ext i hi; simp [wordNNN, word4]; grind

/-! ## The NOP rows (R408) -/

theorem decodeWord_nop0 (a b : Nibble) {n : Nibble} (h : n ∉ assigned0) : decodeWord (word4 0x0 a b n) = .nop0 n := by
  rw [decodeWord_family0 (fieldOp_word4 ..), decode0_of_unassigned (by rwa [fieldN_word4]), fieldN_word4]

theorem decodeWord_nop8 (a b : Nibble) {n : Nibble} (h : n ∉ assigned8) : decodeWord (word4 0x8 a b n) = .nop8 n := by
  rw [decodeWord_family8 (fieldOp_word4 ..), decode8_of_unassigned (by rwa [fieldN_word4]), fieldN_word4]

theorem decodeWord_nopE (a b : Nibble) {n : Nibble} (h : n ∉ assignedE) : decodeWord (word4 0xE a b n) = .nopE n := by
  rw [decodeWord_familyE (fieldOp_word4 ..), decodeE_of_unassigned (by rwa [fieldN_word4]), fieldN_word4]

theorem decodeWord_nopF (x : Nibble) {nn : Byte} (h : nn ∉ assignedF) : decodeWord (wordXNN 0xF x nn) = .nopF nn := by
  rw [decodeWord_familyF (fieldOp_wordXNN ..), decodeF_of_unassigned (by rwa [fieldNN_wordXNN]), fieldNN_wordXNN]

/-! ## Decoding an encoded instruction -/

/-- Row by row, each by its family's key. -/
theorem decodeWord_encode {i : Instr} (h : i.wellFormed = true) : decodeWord (encode i) = i := by
  cases i with
  | cls => exact keyedOnBottomNibbleAlone.1 0x0 0xE 0x0
  | ret => exact keyedOnBottomNibbleAlone.1 0x0 0xE 0xE
  | nop0 sub => exact decodeWord_nop0 0x0 0x0 (by simpa [Instr.wellFormed] using h)
  | jp nnn => exact decodeWord_jp nnn
  | call nnn => exact decodeWord_call nnn
  | seImm x nn => exact decodeWord_seImm x nn
  | sneImm x nn => exact decodeWord_sneImm x nn
  | seReg x y => exact decodeWord_seReg x y 0x0
  | ldImm x nn => exact decodeWord_ldImm x nn
  | addImm x nn => exact decodeWord_addImm x nn
  | ldReg x y => exact decodeWord_key8 x y 0x0
  | orReg x y => exact decodeWord_key8 x y 0x1
  | andReg x y => exact decodeWord_key8 x y 0x2
  | xorReg x y => exact decodeWord_key8 x y 0x3
  | addReg x y => exact decodeWord_key8 x y 0x4
  | subReg x y => exact decodeWord_key8 x y 0x5
  | shr x y => exact decodeWord_key8 x y 0x6
  | subn x y => exact decodeWord_key8 x y 0x7
  | shl x y => exact decodeWord_key8 x y 0xE
  | nop8 sub => exact decodeWord_nop8 0x0 0x0 (by simpa [Instr.wellFormed] using h)
  | sneReg x y => exact decodeWord_sneReg x y 0x0
  | ldI nnn => exact decodeWord_ldI nnn
  | jpV0 nnn => exact decodeWord_jpV0 nnn
  | rnd x nn => exact decodeWord_rnd x nn
  | drw x y n => exact decodeWord_drw x y n
  | skp x => exact (congrArg decodeWord (wordXNN_append 0xE x 0x9 0xE)).trans (keyedOnBottomNibbleAlone.2 x 0x9 0xE)
  | sknp x => exact (congrArg decodeWord (wordXNN_append 0xE x 0xA 0x1)).trans (keyedOnBottomNibbleAlone.2 x 0xA 0x1)
  | nopE sub => exact decodeWord_nopE 0x0 0x0 (by simpa [Instr.wellFormed] using h)
  | ldVxDt x => exact decodeWord_keyF x 0x07
  | ldVxK x => exact decodeWord_keyF x 0x0A
  | ldDtVx x => exact decodeWord_keyF x 0x15
  | ldStVx x => exact decodeWord_keyF x 0x18
  | addI x => exact decodeWord_keyF x 0x1E
  | ldF x => exact decodeWord_keyF x 0x29
  | ldB x => exact decodeWord_keyF x 0x33
  | ldMemVx x => exact decodeWord_keyF x 0x55
  | ldVxMem x => exact decodeWord_keyF x 0x65
  | nopF sub => exact decodeWord_nopF 0x0 (by simpa [Instr.wellFormed] using h)

/-- Settles O2: the two stored bytes are those of the encoded word. -/
theorem decodeEncodeRoundTrip : Obligations.DecodeEncodeRoundTrip := fun i rest h => by
  have hword : decode (encodeBytes i ++ rest) = .ok (decodeWord (encode i), rest) := by
    rw [← wordOfBytes_hi_lo (encode i)]
    simp [encodeBytes, decode]
  rw [hword, decodeWord_encode h]

/-! ## Encoding a decoded word -/

theorem word4_fields (w : Word) : word4 (fieldOp w) (fieldX w) (fieldY w) (fieldN w) = w := by
  ext i hi
  simp [word4, fieldOp, fieldX, fieldY, fieldN]
  grind

/-- The two words agree on every bit the row of `i` reads. -/
def Instr.SameReadBits (i : Instr) (v w : Word) : Prop := v &&& i.readBits = w &&& i.readBits

/-- The word decodes to a well-formed instruction whose encoding agrees with it on the bits that are read. -/
def Reencodes (w : Word) : Prop :=
  (decodeWord w).wellFormed = true ∧ (decodeWord w).SameReadBits (encode (decodeWord w)) w

theorem reencodes_of_decodeWord {w : Word} {i : Instr} (hd : decodeWord w = i) (hwf : i.wellFormed = true)
    (hbits : i.SameReadBits (encode i) w) : Reencodes w := by
  subst hd
  exact ⟨hwf, hbits⟩

section Families

variable (x y n : Nibble)

theorem sameReadBits_nop (op : Nibble) {i : Instr} (hi : i.readBits = 0xF00F) (a b : Nibble) :
    i.SameReadBits (word4 op a b n) (word4 op x y n) := by
  rw [Instr.SameReadBits, hi, word4_mask_F00F, word4_mask_F00F]

theorem reencodes_family0 : Reencodes (word4 0x0 x y n) := by
  by_cases hkey : n ∈ assigned0
  · simp only [assigned0, List.mem_cons, List.not_mem_nil, or_false] at hkey
    obtain rfl | rfl := hkey
    · exact reencodes_of_decodeWord (keyedOnBottomNibbleAlone.1 x y 0x0) rfl (sameReadBits_nop x y 0x0 0x0 rfl 0x0 0xE)
    · exact reencodes_of_decodeWord (keyedOnBottomNibbleAlone.1 x y 0xE) rfl (sameReadBits_nop x y 0xE 0x0 rfl 0x0 0xE)
  · exact reencodes_of_decodeWord (decodeWord_nop0 x y hkey) (by simpa [Instr.wellFormed] using hkey)
      (sameReadBits_nop x y n 0x0 rfl 0x0 0x0)

theorem reencodes_family8 : Reencodes (word4 0x8 x y n) := by
  by_cases hkey : n ∈ assigned8
  · simp only [assigned8, List.mem_cons, List.not_mem_nil, or_false] at hkey
    obtain rfl | rfl | rfl | rfl | rfl | rfl | rfl | rfl | rfl := hkey <;>
      exact reencodes_of_decodeWord (decodeWord_key8 x y _) rfl rfl
  · exact reencodes_of_decodeWord (decodeWord_nop8 x y hkey) (by simpa [Instr.wellFormed] using hkey)
      (sameReadBits_nop x y n 0x8 rfl 0x0 0x0)

theorem reencodes_skip {op : Nibble} {i : Instr} (hd : decodeWord (word4 op x y n) = i) (hwf : i.wellFormed = true)
    (he : encode i = word4 op x y 0x0) (hi : i.readBits = 0xFFF0) : Reencodes (word4 op x y n) := by
  refine reencodes_of_decodeWord hd hwf ?_
  have hmask (m : Nibble) : word4 op x y m &&& 0xFFF0 = word4 op x y 0x0 :=
    (word4_and 0xF 0xF 0xF 0x0 op x y m).trans (by simp [nibble_and_ones])
  rw [Instr.SameReadBits, hi, he, hmask, hmask]

theorem reencodes_familyE : Reencodes (word4 0xE x y n) := by
  have hmask (m b : Nibble) : word4 0xE x b m &&& 0xFF0F = word4 0xE x 0x0 m :=
    (word4_and 0xF 0xF 0x0 0xF 0xE x b m).trans (by simp [nibble_and_ones])
  by_cases hkey : n ∈ assignedE
  · simp only [assignedE, List.mem_cons, List.not_mem_nil, or_false] at hkey
    obtain rfl | rfl := hkey
    · exact reencodes_of_decodeWord (keyedOnBottomNibbleAlone.2 x y 0x1) rfl
        (((congrArg (· &&& 0xFF0F) (wordXNN_append 0xE x 0xA 0x1)).trans (hmask 0x1 0xA)).trans (hmask 0x1 y).symm)
    · exact reencodes_of_decodeWord (keyedOnBottomNibbleAlone.2 x y 0xE) rfl
        (((congrArg (· &&& 0xFF0F) (wordXNN_append 0xE x 0x9 0xE)).trans (hmask 0xE 0x9)).trans (hmask 0xE y).symm)
  · exact reencodes_of_decodeWord (decodeWord_nopE x y hkey) (by simpa [Instr.wellFormed] using hkey)
      (sameReadBits_nop x y n 0xE rfl 0x0 0x0)

theorem reencodes_familyF (nn : Byte) : Reencodes (wordXNN 0xF x nn) := by
  by_cases hkey : nn ∈ assignedF
  · simp only [assignedF, List.mem_cons, List.not_mem_nil, or_false] at hkey
    obtain rfl | rfl | rfl | rfl | rfl | rfl | rfl | rfl | rfl := hkey <;>
      exact reencodes_of_decodeWord (decodeWord_keyF x _) rfl rfl
  · exact reencodes_of_decodeWord (decodeWord_nopF x hkey) (by simpa [Instr.wellFormed] using hkey)
      ((wordXNN_mask_F0FF ..).trans (wordXNN_mask_F0FF ..).symm)

theorem reencodes_word4 (op : Nibble) : Reencodes (word4 op x y n) := by
  rcases op with ⟨k, hk⟩
  interval_cases k
  · exact reencodes_family0 x y n
  · rw [← wordNNN_append]; exact reencodes_of_decodeWord (decodeWord_jp _) rfl rfl
  · rw [← wordNNN_append]; exact reencodes_of_decodeWord (decodeWord_call _) rfl rfl
  · rw [← wordXNN_append]; exact reencodes_of_decodeWord (decodeWord_seImm _ _) rfl rfl
  · rw [← wordXNN_append]; exact reencodes_of_decodeWord (decodeWord_sneImm _ _) rfl rfl
  · exact reencodes_skip x y n (decodeWord_seReg x y n) rfl rfl rfl
  · rw [← wordXNN_append]; exact reencodes_of_decodeWord (decodeWord_ldImm _ _) rfl rfl
  · rw [← wordXNN_append]; exact reencodes_of_decodeWord (decodeWord_addImm _ _) rfl rfl
  · exact reencodes_family8 x y n
  · exact reencodes_skip x y n (decodeWord_sneReg x y n) rfl rfl rfl
  · rw [← wordNNN_append]; exact reencodes_of_decodeWord (decodeWord_ldI _) rfl rfl
  · rw [← wordNNN_append]; exact reencodes_of_decodeWord (decodeWord_jpV0 _) rfl rfl
  · rw [← wordXNN_append]; exact reencodes_of_decodeWord (decodeWord_rnd _ _) rfl rfl
  · exact reencodes_of_decodeWord (decodeWord_drw x y n) rfl rfl
  · exact reencodes_familyE x y n
  · rw [← wordXNN_append]; exact reencodes_familyF x _

end Families

/-- Settles O3: a word is its four nibbles, and the top one selects the family. -/
theorem encodeKeepsEveryReadBit : Obligations.EncodeKeepsEveryReadBit := fun w =>
  word4_fields w ▸ reencodes_word4 (fieldX w) (fieldY w) (fieldN w) (fieldOp w)

/-! ## The rows of the opcode table (spec/30_encoding.md §4) -/

/-- Some word agrees with both patterns. -/
def OpcodeRow.Meets (r q : OpcodeRow) : Prop := r.pat &&& q.mask = q.pat &&& r.mask

theorem OpcodeRow.hits_iff (r : OpcodeRow) (w : Word) : r.hits w = true ↔ w &&& r.mask = r.pat := beq_iff_eq

theorem OpcodeRow.meets_of_hits {r q : OpcodeRow} {w : Word} (hr : r.hits w = true) (hq : q.hits w = true) :
    r.Meets q := by
  rw [OpcodeRow.Meets, ← (r.hits_iff w).mp hr, ← (q.hits_iff w).mp hq, BitVec.and_assoc, BitVec.and_assoc,
    BitVec.and_comm r.mask]

theorem OpcodeRow.selects_iff (r : OpcodeRow) (w : Word) :
    r.selects w = true ↔ r.hits w = true ∧ (r.isDefault = true → ∀ q ∈ opcodeRows, q.isDefault = false → q.hits w = false) := by
  simp [OpcodeRow.selects]
  grind

/-- No two default rows meet, and no two others. -/
theorem opcodeRows_disjoint : opcodeRows.Pairwise fun r q => r.isDefault = q.isDefault → ¬ r.Meets q := by
  unfold OpcodeRow.Meets
  decide

theorem OpcodeRow.isDefault_eq_of_selects {r q : OpcodeRow} {w : Word} (hr : r ∈ opcodeRows) (hq : q ∈ opcodeRows)
    (hrw : r.selects w = true) (hqw : q.selects w = true) : r.isDefault = q.isDefault := by
  obtain ⟨hrhit, hrdef⟩ := (r.selects_iff w).mp hrw
  obtain ⟨hqhit, hqdef⟩ := (q.selects_iff w).mp hqw
  cases hrd : r.isDefault <;> cases hqd : q.isDefault
  · rfl
  · exact absurd hrhit (by simp [hqdef hqd r hr hrd])
  · exact absurd hqhit (by simp [hrdef hrd q hq hqd])
  · rfl

/-- At most one row selects a word. -/
theorem row_unique {w : Word} {j k : Nat} {q r : OpcodeRow} (hq : opcodeRows[j]? = some q) (hr : opcodeRows[k]? = some r)
    (hqw : q.selects w = true) (hrw : r.selects w = true) : j = k := by
  have hqhit : q.hits w = true := ((q.selects_iff w).mp hqw).left
  have hrhit : r.hits w = true := ((r.selects_iff w).mp hrw).left
  have hdef : q.isDefault = r.isDefault :=
    OpcodeRow.isDefault_eq_of_selects (List.mem_of_getElem? hq) (List.mem_of_getElem? hr) hqw hrw
  obtain ⟨hj, rfl⟩ := List.getElem?_eq_some_iff.mp hq
  obtain ⟨hk, rfl⟩ := List.getElem?_eq_some_iff.mp hr
  have hdisjoint := List.pairwise_iff_getElem.mp opcodeRows_disjoint
  obtain hlt | heq | hgt := Nat.lt_trichotomy j k
  · exact absurd (OpcodeRow.meets_of_hits hqhit hrhit) (hdisjoint j k hj hk hlt hdef)
  · exact heq
  · exact absurd (OpcodeRow.meets_of_hits hrhit hqhit) (hdisjoint k j hk hj hgt hdef.symm)

/-- A row that meets an instruction's row tests no bit that the instruction's row does not read. -/
theorem mask_and_readBits (i : Instr) : ∀ d, opcodeRows[i.row]? = some d → ∀ q ∈ opcodeRows, q.Meets d →
    q.mask &&& i.readBits = q.mask := by
  unfold OpcodeRow.Meets
  cases i <;> dsimp only [Instr.row, Instr.readBits] <;> decide

/-- So a word that an instruction's row selects may be changed in the bits the row ignores. -/
theorem selects_of_sameReadBits {i : Instr} {d : OpcodeRow} {v w : Word} (hd : opcodeRows[i.row]? = some d)
    (hbits : i.SameReadBits v w) (hv : d.selects v = true) : d.selects w = true := by
  have hmask (q : OpcodeRow) (hq : q ∈ opcodeRows) (hm : q.Meets d) : v &&& q.mask = w &&& q.mask := by
    have hbits : v &&& i.readBits = w &&& i.readBits := hbits
    rw [← mask_and_readBits i d hd q hq hm, BitVec.and_comm q.mask, ← BitVec.and_assoc, hbits, BitVec.and_assoc]
  obtain ⟨hhit, hdef⟩ := (d.selects_iff v).mp hv
  have hdw : d.hits w = true :=
    (d.hits_iff w).mpr ((hmask d (List.mem_of_getElem? hd) rfl).symm.trans ((d.hits_iff v).mp hhit))
  refine (d.selects_iff w).mpr ⟨hdw, fun hdflt q hq hqd => ?_⟩
  by_contra hqw
  have hqw : q.hits w = true := by simpa using hqw
  have hqv : q.hits v = true :=
    (q.hits_iff v).mpr ((hmask q hq (OpcodeRow.meets_of_hits hqw hdw)).trans ((q.hits_iff w).mp hqw))
  exact absurd hqv (by simp [hdef hdflt q hq hqd])

open Laws.EncodesInRow in
/-- The encoded word of every well-formed instruction is one its own row selects. -/
theorem encodesInRow : (i : Instr) → Statement i
  | .cls => cls | .ret => ret | .nop0 sub => nop0 sub | .jp nnn => jp nnn | .call nnn => call nnn
  | .seImm x nn => seImm x nn | .sneImm x nn => sneImm x nn | .seReg x y => seReg x y | .ldImm x nn => ldImm x nn
  | .addImm x nn => addImm x nn | .ldReg x y => ldReg x y | .orReg x y => orReg x y | .andReg x y => andReg x y
  | .xorReg x y => xorReg x y | .addReg x y => addReg x y | .subReg x y => subReg x y | .shr x y => shr x y
  | .subn x y => subn x y | .shl x y => shl x y | .nop8 sub => nop8 sub | .sneReg x y => sneReg x y | .ldI nnn => ldI nnn
  | .jpV0 nnn => jpV0 nnn | .rnd x nn => rnd x nn | .drw x y n => drw x y n | .skp x => skp x | .sknp x => sknp x
  | .nopE sub => nopE sub | .ldVxDt x => ldVxDt x | .ldVxK x => ldVxK x | .ldDtVx x => ldDtVx x | .ldStVx x => ldStVx x
  | .addI x => addI x | .ldF x => ldF x | .ldB x => ldB x | .ldMemVx x => ldMemVx x | .ldVxMem x => ldVxMem x
  | .nopF sub => nopF sub

/-- Settles O4: the row of the decoded instruction selects its encoding, hence the word, and no other row does. -/
theorem everyWordSelectsItsOneRow : Obligations.EveryWordSelectsItsOneRow := fun w k r hr => by
  obtain ⟨hwf, hbits⟩ := encodeKeepsEveryReadBit w
  obtain ⟨d, hd, hsel⟩ := encodesInRow (decodeWord w) hwf
  have hdw : d.selects w = true := selects_of_sameReadBits hd hbits hsel
  constructor
  · intro hrw
    exact row_unique hr hd hrw hdw
  · rintro rfl
    obtain rfl : d = r := Option.some.inj (hd.symm.trans hr)
    exact hdw

end Sys2Proof
end

section
/-! PROOFS, what a handler may write. Every answer of `exec` is one of a few record updates, which says what an
instruction may write and where PC can go; and the ports are read by the four instructions that name them: O24, O25 and
O26. -/

namespace Sys2Proof.Machine

/-! ## The updates a handler makes -/

/-- Where a completed handler leaves PC. -/
inductive Target (s : State) : Word → Prop where
  | stay : Target s s.pc
  | next : Target s (s.pc + 2)
  | skip : Target s (s.pc + 2 + 2)
  | entry (k : Fin 16) : Target s (s.slot k)
  | jump (nnn : Addr12) : Target s (zext16 nnn)
  | offset (nnn : Addr12) (b : Byte) : Target s (zext16 nnn + b.setWidth 16)

/-- The instructions that may write VF: the list of R104, the logic operations under R604, and the writers of a named
register. -/
def WritesFlag (c : Config) (i : Instr) : Prop :=
  (∃ x y, i = .addReg x y ∨ i = .subReg x y ∨ i = .subn x y ∨ i = .shr x y ∨ i = .shl x y ∨ ∃ n, i = .drw x y n) ∨
  (c.logicVfReset = true ∧ ∃ x y, i = .orReg x y ∨ i = .andReg x y ∨ i = .xorReg x y) ∨
  (∃ y, i = .ldReg flagReg y ∨ i = .orReg flagReg y ∨ i = .andReg flagReg y ∨ i = .xorReg flagReg y) ∨
  (∃ nn, i = .ldImm flagReg nn ∨ i = .addImm flagReg nn ∨ i = .rnd flagReg nn) ∨
  i = .ldVxDt flagReg ∨ i = .ldVxK flagReg ∨ i = .ldVxMem flagReg

/-- The answers of a handler, by what they write besides PC. -/
inductive Update (s : State) : Instr → State → Prop where
  | fault {i : Instr} (c : FaultCode) : Update s i (s.takeFault c)
  | pc {i : Instr} {pc : Word} (hpc : Target s pc) : Update s i (s.setPc pc)
  | regs {i : Instr} (v : Vector Byte 16)
      (hflag : State.reg { s.advance with v := v } flagReg ≠ s.reg flagReg → WritesFlag s.cfg i) :
      Update s i { s.advance with v := v }
  | clear (fb : Framebuffer) : Update s .cls { s.advance with fb := fb }
  | draw (x y : Reg) (n : Nibble) (fb : Framebuffer) (b : Byte) :
      Update s (.drw x y n) ({ s.advance with fb := fb }.setReg flagReg b)
  | pop (sp : Fin 17) (k : Fin 16) : Update s .ret { s with sp := sp, pc := s.slot k }
  | push (nnn : Addr12) (stack : Vector Word 16) (sp : Fin 17)
      (hslot : ∀ k : Fin 16, stack[k] = s.slot k ∨ stack[k] = s.pc + 2) :
      Update s (.call nnn) { s with stack := stack, sp := sp, pc := zext16 nnn }
  | index {i : Instr} (w : Word) (hi : (∃ nnn, i = .ldI nnn) ∨ ∃ x, i = .addI x ∨ i = .ldF x) :
      Update s i { s.advance with index := w }
  | delay (x : Reg) (b : Byte) : Update s (.ldDtVx x) { s.advance with dt := b }
  | sound (x : Reg) (b : Byte) : Update s (.ldStVx x) { s.advance with st := b }
  | store {i : Instr} (bs : List Byte) (hi : ∃ x, i = .ldB x ∨ i = .ldMemVx x)
      (hin : s.index.toNat + bs.length ≤ 0x1000) :
      Update s i { s.advance with mem := Memory.writeList s.cfg s.mem s.index.toNat bs }

section Registers

variable {s : State} {i : Instr} {x : Reg}

theorem Update.setReg (b : Byte) (hx : x = flagReg → WritesFlag s.cfg i) : Update s i (s.advance.setReg x b) :=
  .regs _ fun hne => hx (by_contra fun h => hne (s.advance.reg_setReg_ne b h))

theorem Update.setResultFlag (r f : Byte) (hi : WritesFlag s.cfg i) : Update s i (s.advance.setResultFlag x r f) :=
  .regs _ fun _ => hi

/-- Under R604 a logic operation writes VF when the policy says so or V[X] is VF. -/
theorem Update.setLogic (r : Byte) (hpolicy : s.cfg.logicVfReset = true → WritesFlag s.cfg i)
    (hx : x = flagReg → WritesFlag s.cfg i) : Update s i (s.advance.setLogic x r) := by
  unfold State.setLogic
  split
  case isTrue h => exact .setResultFlag r 0 (hpolicy h)
  case isFalse => exact .setReg r hx

/-- A block load reaches VF only when it loads every register. -/
theorem State.reg_flagReg_advance_setRegs (s : State) (hx : x ≠ flagReg) :
    (s.advance.setRegs 0 (s.blockBytes (x.toNat + 1))).reg flagReg = s.reg flagReg := by
  have hlen : (s.blockBytes (x.toNat + 1)).length = x.toNat + 1 := s.blockBytes_length _
  have hflag : flagReg.toNat = 15 := rfl
  have hne : x.toNat ≠ flagReg.toNat := mt Reg.toNat_inj.mp hx
  rw [State.reg_setRegs _ _ _ _ (by omega), if_neg (by omega), State.reg_advance]

end Registers

theorem Update.skipIf {s : State} {i : Instr} (c : Bool) : Update s i (s.advance.skipIf c) := by
  cases c
  · exact .pc .next
  · exact .pc .skip

/-- A handler with a range check answers fault entry when it fails. -/
theorem Update.checked {i : Instr} {s t u : State} {c : FaultCode} {out : Bool} (hin : out = false → exec i s = .next u)
    (hout : out = true → exec i s = .next (s.takeFault c)) (hu : out = false → Update s i u) (h : exec i s = .next t) :
    Update s i t := by
  cases out
  · cases (hin rfl).symm.trans h
    exact hu rfl
  · cases (hout rfl).symm.trans h
    exact .fault c

/-- SP above 0 names a top entry. -/
theorem State.sp_entry (s : State) (h : s.sp.val ≠ 0) : ∃ k : Fin 16, s.sp.val = k.val + 1 :=
  ⟨⟨s.sp.val - 1, by omega⟩, (Nat.succ_pred h).symm⟩

/-- Everything a handler can answer. -/
theorem exec_update {i : Instr} {s t : State} (h : exec i s = .next t) : Update s i t := by
  cases i with
  | cls => cases h; exact .clear _
  | ret =>
    by_cases hs : s.sp.val = 0
    · cases (execRet_empty s hs).symm.trans h
      exact .fault _
    · obtain ⟨j, hj⟩ := s.sp_entry hs
      obtain ⟨sp, -, hret⟩ := execRet_entry s j hj
      cases hret.symm.trans h
      exact .pop sp _
  | call nnn =>
    by_cases hs : s.sp.val = 16
    · cases (execCall_full nnn s hs).symm.trans h
      exact .fault _
    · obtain ⟨stack, sp, -, hslot, hcall⟩ := execCall_room nnn s (by omega)
      cases hcall.symm.trans h
      refine .push nnn stack sp fun k => ?_
      rw [hslot k]
      split
      · exact .inr rfl
      · exact .inl rfl
  | drw x y n => exact .checked (execDrw_in x y n s) (execDrw_out x y n s) (fun _ => .draw x y n _ _) h
  | ldB x =>
    refine .checked (execLdB_in x s) (execLdB_out x s) (fun hb => .store _ ⟨x, .inl rfl⟩ ?_) h
    have hin := s.blockIn hb
    have hlen : (bcdDigits (s.reg x)).length = 3 := rfl
    omega
  | ldMemVx x =>
    refine .checked (execLdMemVx_in x s) (execLdMemVx_out x s) (fun hb => .store _ ⟨x, .inr rfl⟩ ?_) h
    have hin := s.blockIn hb
    rw [State.regList_length]
    omega
  | ldVxMem x =>
    refine .checked (execLdVxMem_in x s) (execLdVxMem_out x s) (fun _ => ?_) h
    rw [State.setRegs_eq]
    refine .regs _ fun hne => ?_
    obtain rfl : x = flagReg := by_contra fun hx => hne (s.reg_flagReg_advance_setRegs hx)
    simp [WritesFlag]
  | skp x => exact .checked execSkp_in execSkp_out (fun _ => .skipIf _) h
  | sknp x => exact .checked execSknp_in execSknp_out (fun _ => .skipIf _) h
  | ldVxK x =>
    cases hk : s.lowestKey with
    | none =>
      cases (execLdVxK_noKey x hk).symm.trans h
      exact .pc .stay
    | some k =>
      cases (execLdVxK_key hk).symm.trans h
      exact .setReg _ (by rintro rfl; simp [WritesFlag])
  | jp nnn => cases h; exact .pc (.jump nnn)
  | jpV0 nnn => cases h; exact .pc (.offset nnn _)
  | seImm | sneImm | seReg | sneReg => cases h; exact .skipIf _
  | nop0 | nop8 | nopE | nopF => cases h; exact .pc .next
  | ldImm x | addImm x | ldReg x | rnd x | ldVxDt x => cases h; exact .setReg _ (by rintro rfl; simp [WritesFlag])
  | orReg | andReg | xorReg =>
    cases h; exact .setLogic _ (by intro hp; simp [WritesFlag, hp]) (by rintro rfl; simp [WritesFlag])
  | addReg | subReg | shr | subn | shl => cases h; exact .setResultFlag _ _ (by simp [WritesFlag])
  | ldI nnn => cases h; exact .index _ (.inl ⟨nnn, rfl⟩)
  | addI x => cases h; exact .index _ (.inr ⟨x, .inl rfl⟩)
  | ldF x => cases h; exact .index _ (.inr ⟨x, .inr rfl⟩)
  | ldDtVx x => cases h; exact .delay x _
  | ldStVx x => cases h; exact .sound x _

/-- Settles O26: each update writes the places its instructions are named for. -/
theorem whichInstructionsWriteWhat : Obligations.WhichInstructionsWriteWhat := fun i s t h => by
  cases exec_update h with
  | fault c => simp
  | pc hpc => simp
  | regs v hflag => exact ⟨hflag, by simp, by simp, by simp, by simp, by simp, by simp, by simp⟩
  | clear fb => simp [State.reg]
  | draw x y n fb b => simp
  | pop sp k => simp [State.reg]
  | push nnn stack sp hslot => simp [State.reg]
  | index w hi => simp [State.reg, hi]
  | delay x b => simp [State.reg]
  | sound x b => simp [State.reg]
  | store bs hi hin => simp [State.reg, hi]

/-! ## The input ports (R118, R409) -/

/-- The state with other values on the input ports. -/
def State.withPorts (s : State) (k : BitVec 16) (r : Option Byte) : State := { s with keys := k, rnd := r }

theorem State.setKeys_eq_withPorts (s : State) (k : BitVec 16) : s.setKeys k = s.withPorts k s.rnd := rfl

theorem State.setRnd_eq_withPorts (s : State) (b : Byte) : s.setRnd b = s.withPorts s.keys (some b) := rfl

section Ports

variable (s : State) (k : BitVec 16) (r : Option Byte)

theorem State.setLogic_withPorts (x : Reg) (b : Byte) :
    (s.withPorts k r).advance.setLogic x b = (s.advance.setLogic x b).withPorts k r := by
  unfold State.setLogic
  exact (apply_ite (State.withPorts · k r) (s.cfg.logicVfReset = true) (s.advance.setResultFlag x b 0)
    (s.advance.setReg x b)).symm

theorem State.skipIf_withPorts (c : Bool) :
    (s.withPorts k r).advance.skipIf c = (s.advance.skipIf c).withPorts k r := by
  cases c <;> rfl

theorem State.setRegs_withPorts (n : Nat) (bs : List Byte) :
    (s.withPorts k r).setRegs n bs = (s.setRegs n bs).withPorts k r := by
  induction bs generalizing s n with
  | nil => rfl
  | cons b bs ih => exact ih (s.setReg (BitVec.ofNat 4 n) b) (n + 1)

end Ports

/-- A handler with a range check that no port enters. -/
theorem exec_withPorts_checked {s : State} {k : BitVec 16} {r : Option Byte} {i : Instr} {t : State} {c : FaultCode}
    {out : State → Bool} {done : State → State} (hin : ∀ u, out u = false → exec i u = .next (done u))
    (hout : ∀ u, out u = true → exec i u = .next (u.takeFault c)) (hsame : out (s.withPorts k r) = out s)
    (hdone : done (s.withPorts k r) = (done s).withPorts k r) (h : exec i s = .next t) :
    exec i (s.withPorts k r) = .next (t.withPorts k r) := by
  cases ho : out s
  · cases (hin s ho).symm.trans h
    rw [hin _ (hsame.trans ho), hdone]
  · cases (hout s ho).symm.trans h
    exact hout _ (hsame.trans ho)

/-- A handler answers the same state, whatever is on a port that it does not read. -/
theorem exec_withPorts {i : Instr} {s t : State} {k : BitVec 16} {r : Option Byte} (h : exec i s = .next t)
    (hk : ∀ x, i = .skp x ∨ i = .sknp x ∨ i = .ldVxK x → k = s.keys) (hr : ∀ x nn, i = .rnd x nn → r = s.rnd) :
    exec i (s.withPorts k r) = .next (t.withPorts k r) := by
  cases i with
  | ret =>
    by_cases hs : s.sp.val = 0
    · cases (execRet_empty s hs).symm.trans h
      exact execRet_empty (s.withPorts k r) hs
    · obtain ⟨j, hj⟩ := s.sp_entry hs
      obtain ⟨sp, hsp, hret⟩ := execRet_entry s j hj
      obtain ⟨sp', hsp', hret'⟩ := execRet_entry (s.withPorts k r) j hj
      obtain rfl : sp' = sp := Fin.ext (hsp'.trans hsp.symm)
      cases hret.symm.trans h
      exact hret'
  | call nnn =>
    by_cases hs : s.sp.val = 16
    · cases (execCall_full nnn s hs).symm.trans h
      exact execCall_full nnn (s.withPorts k r) hs
    · have hroom : s.sp.val < 16 := by omega
      obtain ⟨stack, sp, hsp, hslot, hcall⟩ := execCall_room nnn s hroom
      obtain ⟨stack', sp', hsp', hslot', hcall'⟩ := execCall_room nnn (s.withPorts k r) hroom
      obtain rfl : sp' = sp := Fin.ext (hsp'.trans hsp.symm)
      obtain rfl : stack' = stack := Vector.ext fun j hj => (hslot' ⟨j, hj⟩).trans (hslot ⟨j, hj⟩).symm
      cases hcall.symm.trans h
      exact hcall'
  | drw x y n => exact exec_withPorts_checked (execDrw_in x y n) (execDrw_out x y n) rfl rfl h
  | ldB x => exact exec_withPorts_checked (execLdB_in x) (execLdB_out x) rfl rfl h
  | ldMemVx x => exact exec_withPorts_checked (execLdMemVx_in x) (execLdMemVx_out x) rfl rfl h
  | ldVxMem x =>
    exact exec_withPorts_checked (execLdVxMem_in x) (execLdVxMem_out x) rfl (s.advance.setRegs_withPorts k r 0 _) h
  | skp x =>
    obtain rfl := hk x (.inl rfl)
    exact exec_withPorts_checked (fun _ => execSkp_in) (fun _ => execSkp_out) rfl (s.skipIf_withPorts ..) h
  | sknp x =>
    obtain rfl := hk x (.inr (.inl rfl))
    exact exec_withPorts_checked (fun _ => execSknp_in) (fun _ => execSknp_out) rfl (s.skipIf_withPorts ..) h
  | ldVxK x =>
    obtain rfl := hk x (.inr (.inr rfl))
    cases hl : s.lowestKey with
    | none =>
      cases (execLdVxK_noKey x hl).symm.trans h
      exact execLdVxK_noKey x (s := s.withPorts s.keys r) hl
    | some j =>
      cases (execLdVxK_key hl).symm.trans h
      exact execLdVxK_key (s := s.withPorts s.keys r) hl
  | rnd x nn =>
    obtain rfl := hr x nn rfl
    cases h
    rfl
  | seImm | sneImm | seReg | sneReg => cases h; exact congrArg _ (s.skipIf_withPorts ..)
  | orReg | andReg | xorReg => cases h; exact congrArg _ (s.setLogic_withPorts ..)
  | _ => cases h; rfl

theorem exec_keys {i : Instr} {s t : State} (h : exec i s = .next t) : t.keys = s.keys := by
  obtain ⟨-, rfl⟩ | ⟨-, -, hkeys, -⟩ := exec_outcome h
  · rfl
  · exact hkeys

/-- Settles O24: the three instructions named are the only ones with a hypothesis on KEY. -/
theorem keypadReadByThreeInstructions : Obligations.KeypadReadByThreeInstructions :=
  ⟨fun _ _ _ => exec_keys, fun i s t k hi h => by
    have hrnd : t.rnd = s.rnd := by
      obtain ⟨-, rfl⟩ | ⟨-, -, -, hrnd, -⟩ := exec_outcome h
      · rfl
      · exact hrnd
    rw [State.setKeys_eq_withPorts, State.setKeys_eq_withPorts, hrnd]
    have hk (x : Reg) (hx : i = .skp x ∨ i = .sknp x ∨ i = .ldVxK x) : k = s.keys := by
      obtain ⟨hskp, hsknp, hldVxK⟩ := hi x
      simp [hskp, hsknp, hldVxK] at hx
    exact exec_withPorts h hk fun _ _ _ => rfl⟩

/-- Settles O25: CXNN is the only instruction with a hypothesis on RND. -/
theorem randomByteReadByOneInstruction : Obligations.RandomByteReadByOneInstruction := fun i s t b hi h => by
  rw [State.setRnd_eq_withPorts, State.setRnd_eq_withPorts, exec_keys h]
  exact exec_withPorts h (fun _ _ => rfl) fun x nn hx => absurd hx (hi x nn)

end Sys2Proof.Machine
end

section
/-! PROOFS, family 40_step_driver and the runs. What the end of a Step does to a completed handler's state: the timers, the
busy loops of the key wait and of the self-jump, and the word that unwritten memory holds: O7, O12, O32, O33, O54 and
O56. -/

namespace Sys2Proof.Machine

/-! ## A completed Step (R400, R406) -/

theorem State.fetchWord_of_memRead {s : State} {hi lo : Byte} (hhi : s.memRead s.pc.toNat = .ok hi)
    (hlo : s.memRead (s.pc.toNat + 1) = .ok lo) : s.fetchWord = .ok (wordOfBytes hi lo) := by
  rw [State.fetchWord, hhi, hlo]

/-- The Step of an unlatched machine is the handler of the fetched word, and then the end of a Step. -/
theorem step_of_exec {s u : State} {w : Word} (hc : s.faultCode = .none) (hw : s.fetchWord = .ok w)
    (hu : exec (decodeWord w) s = .next u) : step s = .next (u.finish w) :=
  step_runs (s.latched_eq_false_iff.mpr hc) (State.fetchOut_of_fetchWord hw) hw hu

/-- Settles O7: the end of a Step by the code the handler's state holds. -/
theorem stepRunsDecodedInstruction : Obligations.StepRunsDecodedInstruction := fun s t hi lo hc hhi hlo h => by
  rw [step_of_exec hc (State.fetchWord_of_memRead hhi hlo) h]
  split
  case isTrue ht => rw [State.finish_of_unlatched _ ht]; rfl
  case isFalse ht => rw [State.finish_of_latched _ ht]; rfl

theorem tick_toNat (b : Byte) : (tick b).toNat = b.toNat - 1 := by
  unfold tick
  split
  case isTrue h => subst h; rfl
  case isFalse h =>
    have hpos : b.toNat ≠ 0 := fun hz => h (BitVec.eq_of_toNat_eq hz)
    have hone : (1 : Byte).toNat = 1 := rfl
    rw [byte_sub_toNat, hone]
    omega

/-- A Step that leaves no fault latched has completed its handler. -/
theorem step_completed {s t : State} {w : Word} (hc : s.faultCode = .none) (hw : s.fetchWord = .ok w)
    (h : step s = .next t) (ht : t.faultCode = .none) :
    ∃ u, exec (decodeWord w) s = .next u ∧ t = (u.complete w).markStepped := by
  obtain ⟨hn, -⟩ | ⟨-, hd, rfl⟩ | ⟨-, -, w', u, hw', hu, -, rfl⟩ := step_outcome h
  · exact absurd hc hn
  · exact absurd ht hd
  · cases hw.symm.trans hw'
    exact ⟨u, hu, rfl⟩

/-- Settles O12: the tick acts on what the handler left, and only FX15 and FX18 write a timer. -/
theorem timersTickEachCompletedStep : Obligations.TimersTickEachCompletedStep := fun s t w hc hw h ht => by
  obtain ⟨u, hu, rfl⟩ := step_completed hc hw h ht
  obtain ⟨-, -, -, -, -, -, hdt, hst⟩ := whichInstructionsWriteWhat _ s u hu
  constructor
  · intro hi
    have hu : u.dt = s.dt := by_contra fun hne => (hdt hne).elim hi
    rw [← hu]
    exact tick_toNat u.dt
  · intro hi
    have hu : u.st = s.st := by_contra fun hne => (hst hne).elim hi
    rw [← hu]
    exact tick_toNat u.st

/-- A Step whose handler leaves the latch alone ends in the completed state. -/
theorem step_complete {s u : State} {w : Word} (hc : s.faultCode = .none) (hw : s.fetchWord = .ok w)
    (hu : exec (decodeWord w) s = .next u) (huc : u.faultCode = s.faultCode) :
    step s = .next (u.complete w).markStepped :=
  State.finish_of_unlatched w (huc.trans hc) ▸ step_of_exec hc hw hu

/-- Settles O56: the handler reads or writes before the tick. -/
theorem timerWritesTickInTheirStep : Obligations.TimerWritesTickInTheirStep := fun s t w x hc hw h => by
  refine ⟨fun hd => ?_, fun hd => ?_, fun hd => ?_⟩
  · have hu : exec (decodeWord w) s = .next (s.advance.setReg x s.dt) := by rw [hd]; rfl
    cases (step_complete hc hw hu rfl).symm.trans h
    exact ⟨State.reg_setReg_self .., tick_toNat s.dt⟩
  · have hu : exec (decodeWord w) s = .next { s.advance with dt := s.reg x } := by rw [hd]; rfl
    cases (step_complete hc hw hu rfl).symm.trans h
    exact tick_toNat (s.reg x)
  · have hu : exec (decodeWord w) s = .next { s.advance with st := s.reg x } := by rw [hd]; rfl
    cases (step_complete hc hw hu rfl).symm.trans h
    exact tick_toNat (s.reg x)

/-! ## Steps that stay where they are (R121, R903, R1415) -/

theorem State.keeps_complete (s : State) (w : Word) : Keeps [.dt, .st, .ir, .rnd] s (s.complete w) := fun p hp => by
  cases p with
  | dt | st | ir | rnd => simp at hp
  | host => exact ⟨rfl, rfl⟩
  | latch => exact ⟨rfl, rfl, rfl⟩
  | _ => rfl

/-- The end of a completed Step. -/
theorem State.keeps_complete_markStepped (s : State) (w : Word) :
    Keeps [.dt, .st, .ir, .rnd, .host] s (s.complete w).markStepped :=
  (s.keeps_complete w).trans (State.keeps_markStepped _)

/-- Settles O54: the key wait answers the state it was given, and no part of the waiting condition is touched by the end
of the Step. -/
theorem keyWaitIsABusyWait : Obligations.KeyWaitIsABusyWait := fun s hc ⟨w, x, hw, hd, hup⟩ =>
  have hu : exec (decodeWord w) s = .next s := hd ▸ execLdVxK_noKey x (s.lowestKey_eq_none_iff.mpr hup)
  ⟨_, step_complete hc hw hu rfl, hc, ⟨w, x, hw, hd, hup⟩, tick_toNat s.dt, tick_toNat s.st,
    s.keeps_complete_markStepped w⟩

/-- Settles O33: a jump to its own address answers the state it was given. -/
theorem selfJumpLoopsForEver : Obligations.SelfJumpLoopsForEver := fun s ⟨hl, w, nnn, hw, hd, hself⟩ => by
  have hu : exec (decodeWord w) s = .next s := by
    have hjp : exec (.jp nnn) s = .next (s.setPc (zext16 nnn)) := rfl
    rw [hd, hjp, hself]
    rfl
  exact ⟨_, step_complete (s.latched_eq_false_iff.mp hl) hw hu rfl, ⟨hl, w, nnn, hw, hd, hself⟩, rfl, tick_toNat s.dt,
    tick_toNat s.st, s.keeps_complete_markStepped w⟩

/-! ## Unwritten memory (R1414) -/

/-- Settles O32: the word 0x0000 decodes to CLS. -/
theorem zeroBytesRunAsCls : Obligations.ZeroBytesRunAsCls := fun s hc _ hhi hlo => by
  have hw : s.fetchWord = .ok 0x0000 := State.fetchWord_of_memRead hhi hlo
  have hd : decodeWord 0x0000 = .cls := keyedOnBottomNibbleAlone.1 0x0 0x0 0x0
  have hu : exec (decodeWord 0x0000) s = .next { s.advance with fb := blankScreen } := by rw [hd]; rfl
  refine ⟨_, step_complete hc hw hu rfl, rfl, pixelOf_blankScreen, hc, fun p hp => ?_⟩
  have hexec : ¬ (p = .pc ∨ ∃ x y, p = .pixel x y) := mt (Or.imp_left fun h => h ▸ List.mem_cons_self) hp
  have hend : p ∉ [.dt, .st, .ir, .rnd, .host] := fun h => hp (.inl (List.mem_cons_of_mem _ h))
  exact Place.same_trans (s.keepsExcept_advance_fb _ p hexec) (State.keeps_complete_markStepped _ _ p hend)

end Sys2Proof.Machine
end

section
/-! PROOFS, family 70_reset_and_hazards and the host's memory. Reset, the block of bytes that LOAD and the placing of a word
write, and the canonical form: O8, O19, O22 and O28 to O31. -/

namespace Sys2Proof.Machine

/-! ## Reset (R127, R1401) -/

/-- Settles O28: the constructed state, with the ports as they were. -/
theorem hostResetReconstructs : Obligations.HostResetReconstructs := fun s =>
  ⟨s.hostReset, rfl, rfl, rfl, (fun a ha => (State.memRead_resetWith s.cfg ha).trans (by rw [resetByte_eq])),
    State.reg_resetWith s.cfg, rfl, rfl, State.slot_resetWith s.cfg, rfl, rfl, rfl, State.pixel_resetWith s.cfg, rfl, rfl,
    rfl, rfl, rfl, rfl⟩

/-- Settles O19: memory lists nothing, the stack is empty and no fault is latched. -/
theorem invariantAtReset : Obligations.InvariantAtReset := fun c =>
  { memory := Memory.wf_reset c
    pcBound := (by decide : (0x200 : Word).toNat ≤ 0x10FE)
    stackBound := fun k => by rw [State.slot_resetWith]; decide
    clearRecord := fun _ => ⟨rfl, rfl⟩
    heldRecord := fun h => absurd rfl h }

/-! ## Blocks of bytes (R204) -/

/-- The state with a block of bytes stored. -/
def State.store (s : State) (a : Nat) (bs : List Byte) : State := { s with mem := Memory.writeList s.cfg s.mem a bs }

theorem State.memRead_store (s : State) {a k : Nat} {bs : List Byte} (hin : a + bs.length ≤ 0x1000) (hk : k < bs.length) :
    (s.store a bs).memRead (a + k) = .ok (bs.getD k 0) := by
  rw [State.memRead_ok _ (by omega)]
  exact congrArg _ ((Memory.read_writeList ..).trans (by rw [if_pos (by omega), Nat.add_sub_cancel_left]))

theorem State.keepsExcept_store (s : State) (a : Nat) (bs : List Byte) :
    KeepsExcept (fun p => ∃ k < bs.length, p = .byte (a + k)) s (s.store a bs) := fun p hp => by
  cases p with
  | byte b =>
    have hout : ¬ (a ≤ b ∧ b < a + bs.length) := fun ⟨hle, hlt⟩ =>
      hp ⟨b - a, by omega, by rw [Nat.add_sub_cancel' hle]⟩
    simp only [Place.same, State.memRead, State.store, Memory.read_writeList, if_neg hout]
  | rnd | host => exact ⟨rfl, rfl⟩
  | latch => exact ⟨rfl, rfl, rfl⟩
  | _ => rfl

/-! ## LOAD (R1410 to R1412) -/

theorem State.load_of_le {s : State} {image : List Byte} (hs : s.stepped = false) (hlen : image.length ≤ 3584) :
    s.load image = .next (.ok, { s.store 0x200 image with loaded := true }) :=
  (if_neg (by simp [hs])).trans (if_neg hlen.not_gt)

/-- Settles O30: the length is checked before anything is written. -/
theorem longImageIsRejected : Obligations.LongImageIsRejected := fun s image hs hlen =>
  (if_neg (by simp [hs])).trans (if_pos hlen)

theorem State.keeps_loaded (s : State) (b : Bool) : Keeps [.host] s { s with loaded := b } := fun p hp => by
  cases p with
  | host => exact absurd (List.mem_singleton_self _) hp
  | rnd => exact ⟨rfl, rfl⟩
  | latch => exact ⟨rfl, rfl, rfl⟩
  | _ => rfl

/-- Settles O29: 3584 bytes from 0x200 on end inside memory. -/
theorem loadCopiesTheImage : Obligations.LoadCopiesTheImage := fun s image hs hlen =>
  ⟨_, State.load_of_le hs hlen, fun _ hk => s.memRead_store (by omega) hk, rfl, hs, fun p hp =>
    Place.same_trans (s.keepsExcept_store 0x200 image p fun ⟨k, hk, hpk⟩ => hp (.inr ⟨k, hk, hpk⟩))
      (State.keeps_loaded _ true p fun h => hp (.inl (List.mem_singleton.mp h)))⟩

/-- Everything LOAD can answer: it rejects with nothing changed, or stores the image and sets its flag. -/
theorem State.load_cases {s : State} {image : List Byte} {r : LoadStatus × State} (h : s.load image = .next r) :
    s.stepped = false ∧ (r = (.rejected, s) ∨
      image.length ≤ 3584 ∧ r = (.ok, { s.store 0x200 image with loaded := true })) := by
  unfold State.load at h
  split at h
  case isTrue => cases h
  case isFalse hs =>
    have hs : s.stepped = false := by simpa using hs
    split at h
    case isTrue => cases h; exact ⟨hs, .inl rfl⟩
    case isFalse hlen => cases h; exact ⟨hs, .inr ⟨Nat.not_lt.mp hlen, rfl⟩⟩

theorem State.load_stepped {s t : State} {image : List Byte} {r : LoadStatus} (h : s.load image = .next (r, t)) :
    t.stepped = false := by
  obtain ⟨hs, heq | ⟨-, heq⟩⟩ := State.load_cases h <;> cases heq <;> exact hs

theorem step_stepped {s t : State} (h : step s = .next t) (hc : s.faultCode = .none) : t.stepped = true := by
  obtain ⟨hn, -⟩ | ⟨-, -, rfl⟩ | ⟨-, -, w, u, -, -, -, rfl⟩ := step_outcome h
  · exact absurd hc hn
  · rfl
  · rfl

/-- Settles O31: the flag that a STEP sets and RESET clears is all that LOAD asks. -/
theorem loadOnlyBeforeTheFirstStep : Obligations.LoadOnlyBeforeTheFirstStep :=
  ⟨fun _ _ hs => if_pos hs, fun _ _ hc h => step_stepped h hc, fun _ _ h => by cases h; rfl,
    fun s t image later r _ h hlen => by
      have ht : t.stepped = false := State.load_stepped h
      obtain ⟨u, hu, hread, -⟩ := loadCopiesTheImage t later ht hlen
      exact ⟨ht, u, hu, hread⟩⟩

/-! ## The placing of a word (log 14) -/

/-- A word's two bytes stored at PC are the word the fetch reads (R203). -/
theorem State.fetchWord_store (s : State) (w : Word) (h : s.pc.toNat ≤ 0xFFE) :
    (s.store s.pc.toNat [hiByte w, loByte w]).fetchWord = .ok w := by
  have hin : s.pc.toNat + [hiByte w, loByte w].length ≤ 0x1000 := Nat.add_le_add_right h 2
  have hhi := s.memRead_store hin (k := 0) (by simp)
  have hlo := s.memRead_store hin (k := 1) (by simp)
  rw [State.fetchWord_of_memRead hhi hlo]
  exact congrArg _ (wordOfBytes_hi_lo w)

theorem State.keeps_ack (s : State) : Keeps [.latch] s s.ack := by
  obtain ⟨hlatched, hclear⟩ := ackClearsTheLatchOnly s
  by_cases hc : s.faultCode = .none
  · rw [hclear hc]
    exact Keeps.refl _ s
  · obtain ⟨-, -, -, hkeeps⟩ := hlatched hc
    exact hkeeps

theorem State.withFetchWord_eq_store {s : State} (w : Word) (h : s.pc.toNat ≤ 0xFFE) :
    s.withFetchWord 16 w.toNat = s.ack.store s.ack.pc.toNat [hiByte w, loByte w] := by
  have hout : s.ack.fetchOut = false := by
    rw [← Bool.not_eq_true, State.fetchOut_iff, State.ack_pc]
    omega
  rw [State.withFetchWord, Nat.mod_eq_of_lt w.isLt, BitVec.ofNat_toNat, BitVec.setWidth_eq, State.placeWord, hout]
  rfl

/-- Settles O8: ACK, and then a block of two bytes at PC. -/
theorem placedWordIsFetchedNext : Obligations.PlacedWordIsFetchedNext := fun s w hpc => by
  rw [State.withFetchWord_eq_store w hpc]
  refine ⟨s.ack.fetchWord_store w (s.ack_pc ▸ hpc), s.ack_faultCode, fun p hp => ?_⟩
  refine Place.same_trans (s.keeps_ack p ?_) (s.ack.keepsExcept_store _ _ p ?_)
  · exact fun h => hp (List.mem_cons.mpr (.inl (List.mem_singleton.mp h)))
  · rintro ⟨k, hk, rfl⟩
    have hk : k < 2 := hk
    interval_cases k <;> simp at hp

/-! ## The canonical form of memory (log 9) -/

theorem Memory.read_of_mem {c : Config} {m : Memory} {e : Host.Cell} (h : m.Pairwise fun e f : Host.Cell => e.1 < f.1)
    (he : e ∈ m) : Memory.read c m e.1 = e.2 := by
  induction m with
  | nil => cases he
  | cons f m ih =>
    obtain ⟨hf, hm⟩ := List.pairwise_cons.mp h
    obtain rfl | he := List.mem_cons.mp he
    · exact if_pos rfl
    · exact (if_neg (hf e he).ne).trans (ih hm he)

theorem Memory.mem_of_read {c : Config} {m : Memory} {a : Nat} (h : Memory.read c m a ≠ resetByte c a) :
    (a, Memory.read c m a) ∈ m := by
  induction m with
  | nil => exact absurd rfl h
  | cons f m ih =>
    obtain ⟨k, b⟩ := f
    rw [Memory.read] at h ⊢
    split
    case isTrue hk => subst hk; exact List.mem_cons_self
    case isFalse hk =>
      rw [if_neg hk] at h
      exact List.mem_cons_of_mem _ (ih h)

/-- A canonical memory lists exactly the bytes that differ from the reset contents. -/
theorem Memory.mem_iff_of_wf {c : Config} {m : Memory} (h : Memory.wf c m) (e : Host.Cell) :
    e ∈ m ↔ Memory.read c m e.1 = e.2 ∧ e.2 ≠ resetByte c e.1 := by
  obtain ⟨hrising, hentry⟩ := h
  constructor
  · intro he
    exact ⟨Memory.read_of_mem hrising he, (hentry e he).right⟩
  · rintro ⟨hread, hne⟩
    have hmem := Memory.mem_of_read (hread ▸ hne)
    rwa [hread] at hmem

/-- Settles O22: the same entries in rising order. -/
theorem canonicalMemoriesAreEqual : Obligations.CanonicalMemoriesAreEqual := fun c m n hm hn hread => by
  have hnodup {l : Memory} (hl : l.Pairwise fun e f : Host.Cell => e.1 < f.1) : l.Nodup :=
    hl.imp fun hlt heq => hlt.ne (congrArg Prod.fst heq)
  have hperm : m.Perm n := (List.perm_ext_iff_of_nodup (hnodup hm.1) (hnodup hn.1)).mpr fun e => by
    rw [Memory.mem_iff_of_wf hm, Memory.mem_iff_of_wf hn, hread]
  exact hperm.eq_of_pairwise (fun e f _ _ hef hfe => absurd hef hfe.asymm) hm.1 hn.1

end Sys2Proof.Machine
end

section
/-! PROOFS, the invariant. A completed handler keeps memory canonical and PC and the stack in bounds, fault entry records
the fault the state is due, and a property that every transaction keeps holds along every session: O20, O21 and O23. -/

namespace Sys2Proof.Machine

/-! ## A completed handler (R501 to R509, R1100, R1101) -/

/-- From a fetched word PC goes at most to the greatest target of JP V0. -/
theorem Target.toNat_le {s : State} {pc : Word} (h : Target s pc) (hpc : s.pc.toNat ≤ 0xFFE)
    (hslot : ∀ k, (s.slot k).toNat ≤ 0x1000) : pc.toNat ≤ 0x10FE := by
  cases h with
  | stay => omega
  | next => bv_omega
  | skip => bv_omega
  | entry k => exact (hslot k).trans (by omega)
  | jump nnn => rw [zext16_toNat]; omega
  | offset nnn b => rw [zext16_add_byte_toNat]; omega

theorem Update.memory_wf {s t : State} {i : Instr} (h : Update s i t) (hm : Memory.wf s.cfg s.mem) :
    Memory.wf t.cfg t.mem := by
  cases h with
  | store bs hi hin => exact Memory.wf_writeList hm hin
  | _ => exact hm

theorem Update.stack_le {s t : State} {i : Instr} (h : Update s i t) (hpc : s.pc.toNat ≤ 0xFFE)
    (hslot : ∀ k, (s.slot k).toNat ≤ 0x1000) (k : Fin 16) : (t.slot k).toNat ≤ 0x1000 := by
  cases h with
  | push nnn stack sp hstack =>
    obtain heq | heq := hstack k
    · exact (congrArg BitVec.toNat heq).trans_le (hslot k)
    · have hreturn : (s.pc + 2).toNat ≤ 0x1000 := by bv_omega
      exact (congrArg BitVec.toNat heq).trans_le hreturn
  | _ => exact hslot k

theorem Update.target {s t : State} {i : Instr} (h : Update s i t) : Target s t.pc := by
  cases h with
  | fault c => exact .stay
  | pc hpc => exact hpc
  | pop sp k => exact .entry k
  | push nnn => exact .jump nnn
  | _ => exact .next

/-! ## The Step -/

/-- Fault entry keeps the invariant: the state with the record is due the same fault as before. -/
theorem Inv.takeFault {s : State} (h : Inv s) (hd : s.dueFault ≠ .none) :
    Inv (s.takeFault s.dueFault).markStepped where
  memory := h.memory
  pcBound := h.pcBound
  stackBound := h.stackBound
  clearRecord := fun hn => absurd hn hd
  heldRecord := fun _ => ⟨rfl, rfl, rfl, rfl⟩

/-- Settles O20: by the fault the Step is due. -/
theorem invariantKeptByStep : Obligations.InvariantKeptByStep := fun s t h hstep => by
  obtain ⟨-, rfl⟩ | ⟨-, hd, rfl⟩ | ⟨hc, -, w, u, hw, hu, ⟨-, -, -, -, -, hcode, hfpc, hfir, -⟩, rfl⟩ := step_outcome hstep
  · exact h
  · exact h.takeFault hd
  · have hpc : s.pc.toNat ≤ 0xFFE := Nat.not_lt.mp (of_decide_eq_false (State.fetchOut_of_fetchWord hw))
    have hupdate := exec_update hu
    obtain ⟨hpc0, hir0⟩ := h.clearRecord hc
    exact {
      memory := hupdate.memory_wf h.memory
      pcBound := hupdate.target.toNat_le hpc h.stackBound
      stackBound := hupdate.stack_le hpc h.stackBound
      clearRecord := fun _ => ⟨hfpc.trans hpc0, hfir.trans hir0⟩
      heldRecord := fun hn => absurd (hcode.trans hc) hn }

/-! ## The other transactions (R124) -/

/-- Before the first STEP no fault is latched. -/
theorem Inv.unlatched_of_not_stepped {s : State} (h : Inv s) (hs : s.stepped = false) : s.faultCode = .none := by
  by_contra hc
  obtain ⟨-, -, -, hstepped⟩ := h.heldRecord hc
  exact Bool.false_ne_true (hs.symm.trans hstepped)

theorem Inv.load {s : State} {image : List Byte} {r : LoadStatus × State} (h : Inv s) (hr : s.load image = .next r) :
    Inv r.2 := by
  obtain ⟨hs, rfl | ⟨hlen, rfl⟩⟩ := State.load_cases hr
  · exact h
  · exact {
      memory := Memory.wf_writeList h.memory (by omega)
      pcBound := h.pcBound
      stackBound := h.stackBound
      clearRecord := h.clearRecord
      heldRecord := fun hn => absurd (h.unlatched_of_not_stepped hs) hn }

theorem Inv.ack {s : State} (h : Inv s) : Inv s.ack where
  memory := by simpa using h.memory
  pcBound := by simpa using h.pcBound
  stackBound := fun k => State.slot_congr s.ack_stack k ▸ h.stackBound k
  clearRecord := fun _ => by
    unfold State.ack
    split
    case isTrue hc => exact h.clearRecord hc
    case isFalse => exact ⟨rfl, rfl⟩
  heldRecord := fun hn => absurd s.ack_faultCode hn

/-- No clause of the invariant looks at a port or at the draw counter. -/
theorem Inv.ports {s : State} (h : Inv s) (k : BitVec 16) (r : Option Byte) (n : Nat) :
    Inv { s with keys := k, rnd := r, rndCount := n } :=
  ⟨h.memory, h.pcBound, h.stackBound, h.clearRecord, h.heldRecord⟩

theorem transact_load {s t : State} {image : List Byte} (h : transact (.load image) s = .next t) :
    ∃ r, s.load image = .next r ∧ t = r.2 := by
  simp only [transact] at h
  split at h
  next r hr => cases h; exact ⟨r, hr, rfl⟩
  all_goals cases h

theorem Inv.transact {o : HostOp} {s t : State} (h : Inv s) (ho : transact o s = .next t) : Inv t := by
  cases o with
  | reset => cases ho; exact (invariantAtReset s.cfg).ports _ _ _
  | load image =>
    obtain ⟨r, hr, rfl⟩ := transact_load ho
    exact h.load hr
  | step => exact invariantKeptByStep s t h ho
  | ack => cases ho; exact h.ack
  | key k => cases ho; exact h.ports _ _ _
  | rnd b => cases ho; exact h.ports _ _ _

/-! ## Sessions (R1413) -/

/-- What every transaction keeps, every session keeps. -/
theorem session_keeps {P : State → Prop} (hP : ∀ {o s t}, P s → transact o s = .next t → P t) {os : List HostOp}
    {s t : State} (hs : P s) (h : session os s = .next t) : P t := by
  induction os generalizing s with
  | nil => cases h; exact hs
  | cons o os ih =>
    simp only [session] at h
    split at h
    next u hu => exact ih (hP hs hu) h
    all_goals cases h

/-- Settles O21: every transaction keeps the invariant. -/
theorem invariantKeptBySessions : Obligations.InvariantKeptBySessions := fun _ _ _ hs h =>
  session_keeps Inv.transact hs h

theorem step_cfg {s t : State} (h : step s = .next t) : t.cfg = s.cfg := by
  obtain ⟨-, rfl⟩ | ⟨-, -, rfl⟩ | ⟨-, -, w, u, -, -, ⟨hcfg, -⟩, rfl⟩ := step_outcome h
  · rfl
  · rfl
  · exact hcfg

theorem transact_cfg {o : HostOp} {s t : State} (h : transact o s = .next t) : t.cfg = s.cfg := by
  cases o with
  | load image =>
    obtain ⟨r, hr, rfl⟩ := transact_load h
    obtain ⟨-, rfl | ⟨-, rfl⟩⟩ := State.load_cases hr <;> rfl
  | step => exact step_cfg h
  | ack => cases h; exact s.ack_cfg
  | reset | key k | rnd b => cases h; rfl

/-- Settles O23: every transaction keeps the parameters. -/
theorem parametersNeverChange : Obligations.ParametersNeverChange := fun _ s _ h =>
  session_keeps (P := fun u => u.cfg = s.cfg) (fun hs ht => (transact_cfg ht).trans hs) rfl h

end Sys2Proof.Machine
end

section
/-! PROOFS, instructions run in pairs, and the FB port: O49, O51 and O60. -/

namespace Sys2Proof.Machine

/-- Settles O51: x < 64, so quotient and remainder of the index are the coordinates. -/
theorem fbPortIsRowMajor : Obligations.FbPortIsRowMajor := fun s x y hx _ => by
  rw [State.fbPort, show (y * 64 + x) % 64 = x by omega, show (y * 64 + x) / 64 = y by omega]

/-- Settles O60: FX55 leaves V[r] at I + r, and FX65 takes it from there. -/
theorem storeThenLoadRoundTrips : Obligations.StoreThenLoadRoundTrips := fun s t s' u x hin hst hmem hcfg hindex hld r hr => by
  obtain ⟨-, hstore, -⟩ := storeRegistersBlock s x
  obtain ⟨t', ht', hstored, -, hkeeps⟩ := hstore hin
  cases hst.symm.trans ht'
  have hti : t.index = s.index := hkeeps .index (by simp)
  have hs'i : s'.index.toNat = s.index.toNat := by rw [hindex, hti]
  obtain ⟨-, hload, -⟩ := loadRegistersBlock s' x
  obtain ⟨u', hu', hloaded, -⟩ := hload (by omega)
  cases hld.symm.trans hu'
  have hread := hloaded r hr
  rw [State.memRead_congr hmem hcfg, hs'i, hstored r hr] at hread
  exact (Except.ok.inj hread).symm

/-- Settles O49: the second draw flips the pixels that the first one flipped. -/
theorem drawingTwiceRestores : Obligations.DrawingTwiceRestores :=
  fun s t s' t' x y x' y' n rows hin hlen hrows hdraw hfb hcfg hmem hindex hx hy hdraw' => by
  obtain ⟨-, hfirst, -⟩ := drawFlipsTheCoveredPixels s x y n rows
  obtain ⟨t₁, ht₁, -, hflip, -⟩ := hfirst hin hlen hrows
  cases hdraw.symm.trans ht₁
  obtain ⟨-, hsecond, -⟩ := drawFlipsTheCoveredPixels s' x' y' n rows
  have hrows' (r : Nat) (hr : r < n.toNat) : s'.memRead (s'.index.toNat + r) = .ok (rows.getD r 0) := by
    rw [State.memRead_congr hmem hcfg, hindex, hrows r hr]
  obtain ⟨t₂, ht₂, -, hflip', -, hflag', -⟩ := hsecond (hindex ▸ hin) hlen hrows'
  cases hdraw'.symm.trans ht₂
  have hpixel (px py : Nat) : s'.pixel px py = t.pixel px py := by rw [State.pixel, hfb]; rfl
  simp only [hpixel, hcfg, hx, hy] at hflip' hflag'
  refine ⟨fun px py hpx hpy => Bool.eq_iff_iff.mpr ?_, hflag'⟩
  rw [hflip' px py hpx hpy, hflip px py hpx hpy]
  exact iff_assoc.trans (iff_true_right Iff.rfl)

end Sys2Proof.Machine
end
